-- ==== Sys2Proof/Word.lean ====
section
/-! DEFINITION. The widths of chip8-vm CORE (spec/00_scope.md R4): registers and memory bytes of 8 bits, instruction words,
program counter and call-stack entries of 16. Every quantity is unsigned (R5). -/

namespace Sys2Proof

/-- A general register or a byte of memory: 8 bits, unsigned (R4, R10, R30). -/
abbrev Byte := BitVec 8

/-- An instruction word, the program counter, or a call-stack entry: 16 bits, unsigned (R4, R13, R16). -/
abbrev Word := BitVec 16

end Sys2Proof
end

