-- ==== Sys2Proof/Syntax.lean ====
section
/-! DEFINITION. The instructions of chip8-vm CORE (spec/30_encoding.md R52, R53, R55) and what the decoder reads on its way
to one of them (R51, R54). -/

namespace Sys2Proof

/-- A register index: the fields `x` and `y`, 0 to 15; all 16 values are legal (R11, R53). -/
abbrev Reg := Fin 16

/-- The immediate `addr12`: an absolute byte address 0x000 to 0xFFF (R53). -/
abbrev Addr12 := BitVec 12

/-- The nine instructions, one constructor per row of the opcode table (R55). There is no other (R59, R60, R63). -/
inductive Instr where
  /-- HALT, the whole word 0x0000 (R90). -/
  | halt
  /-- RETURN, the whole word 0x00EE (R91). -/
  | ret
  /-- CALL `addr12`, 0x2nnn (R92). -/
  | call (addr12 : Addr12)
  /-- MOVE `rX,rY`, 0x8xy0 (R100). -/
  | move (x y : Reg)
  /-- OR `rX,rY`, 0x8xy1 (R101). -/
  | or (x y : Reg)
  /-- AND `rX,rY`, 0x8xy2 (R102). -/
  | and (x y : Reg)
  /-- XOR `rX,rY`, 0x8xy3 (R103). -/
  | xor (x y : Reg)
  /-- ADD `rX,rY`, 0x8xy4 (R104). -/
  | add (x y : Reg)
  /-- SUB `rX,rY`, 0x8xy5 (R105). -/
  | sub (x y : Reg)
deriving DecidableEq, Repr

/-- The mnemonic of an instruction's row of the opcode table (R55). -/
def Instr.mnemonic : Instr → String
  | .halt => "HALT"
  | .ret => "RETURN"
  | .call _ => "CALL"
  | .move _ _ => "MOVE"
  | .or _ _ => "OR"
  | .and _ _ => "AND"
  | .xor _ _ => "XOR"
  | .add _ _ => "ADD"
  | .sub _ _ => "SUB"

/-- The five fields the decoder extracts from every word (R51); `addr12` overlaps `x`, `y` and `op`. -/
structure Fields where
  /-- bits 15 to 12 -/
  family : BitVec 4
  /-- bits 11 to 8 -/
  x : BitVec 4
  /-- bits 7 to 4 -/
  y : BitVec 4
  /-- bits 3 to 0 -/
  op : BitVec 4
  /-- bits 11 to 0 -/
  addr12 : Addr12
deriving DecidableEq, Repr

/-- Why a word is no instruction (R56, R57, R58), or bytes hold no word. All three kinds of unsupported word raise the
one failure UnsupportedInstruction (R59, R141); `truncated` names fewer than two bytes, which a fetch never yields. -/
inductive DecodeReject where
  /-- `family` is not 0x0, 0x2 or 0x8 (R56). -/
  | unsupportedFamily (family : BitVec 4)
  /-- family 0x0, and the word is neither 0x0000 nor 0x00EE (R57). -/
  | unsupportedControlWord (word : Word)
  /-- family 0x8 and `op` is 0x6 to 0xF (R58). -/
  | unsupportedAluOp (op : BitVec 4)
  /-- fewer than two bytes: no instruction word (R50). -/
  | truncated
deriving DecidableEq, Repr

end Sys2Proof
end

