-- ==== Sys2Proof/WellFormed.lean ====
section
/-! DEFINITION. Which instructions and which words are well formed. An `Instr` is so by its types: the fields `x` and `y` name
a register and `addr12` an address at each of their values (spec/10_state.md R11, spec/30_encoding.md R53). A WORD is well formed when
one of the nine rows of the opcode table matches it (R55), written here from that table's match and mask columns and not
from the decoder's two levels (R54), so that the two can be compared. -/

namespace Sys2Proof

/-- One row of the opcode table (R55): `w` is the row's instruction exactly when `w &&& mask = pattern`. -/
structure OpcodeRow where
  mnemonic : String
  pattern : Word
  mask : Word
deriving DecidableEq, Repr

/-- The nine rows (R55, spec/opcode_table.json). -/
def opcodeTable : List OpcodeRow :=
  [ ⟨"HALT", 0x0000, 0xFFFF⟩, ⟨"RETURN", 0x00EE, 0xFFFF⟩, ⟨"CALL", 0x2000, 0xF000⟩,
    ⟨"MOVE", 0x8000, 0xF00F⟩, ⟨"OR", 0x8001, 0xF00F⟩, ⟨"AND", 0x8002, 0xF00F⟩,
    ⟨"XOR", 0x8003, 0xF00F⟩, ⟨"ADD", 0x8004, 0xF00F⟩, ⟨"SUB", 0x8005, 0xF00F⟩ ]

/-- A row matches a word (R55). -/
def OpcodeRow.matchesWord (row : OpcodeRow) (w : Word) : Bool := w &&& row.mask == row.pattern

/-- A word is well formed: some row of the table matches it. Every other word is unsupported (R59). -/
def wellFormedWord (w : Word) : Bool := opcodeTable.any (·.matchesWord w)

/-- An instruction's operands are in the ranges of its fields (R53). The operand types already say so. -/
def Instr.wellFormed : Instr → Bool
  | .halt | .ret => true
  | .call n => decide (n.toNat < 0x1000)
  | .move x y | .or x y | .and x y | .xor x y | .add x y | .sub x y => decide (x.val < 16) && decide (y.val < 16)

end Sys2Proof
end

