-- ==== Sys2Proof/Decode.lean ====
section
/-! DEFINITION. The decoder, total on every word and on every list of bytes, rejecting by name (spec/30_encoding.md R50, R51, R54),
and the encoder (R64), written from the same tables; the byte order of an instruction word (spec/20_memory.md R32). -/

namespace Sys2Proof

/-- A word from its two bytes, the first byte the high one: bits 15 to 8, then bits 7 to 0 (R32). -/
def wordOfBytes (hi lo : Byte) : Word := BitVec.ofNat 16 (256 * hi.toNat + lo.toNat)

/-- The byte of a word that stands at the lower address: bits 15 to 8 (R64). -/
def highByte (w : Word) : Byte := w.extractLsb' 8 8

/-- The byte of a word that stands at the higher address: bits 7 to 0 (R64). -/
def lowByte (w : Word) : Byte := w.extractLsb' 0 8

/-- The five fields of a word (R51, R74). -/
def splitWord (w : Word) : Fields where
  family := w.extractLsb' 12 4
  x := w.extractLsb' 8 4
  y := w.extractLsb' 4 4
  op := w.extractLsb' 0 4
  addr12 := w.extractLsb' 0 12

/-- The register a 4-bit field names (R53). -/
def regOfField (f : BitVec 4) : Reg := f.toFin

/-- Second level, control group: the whole word selects (R57). -/
def decodeControl (w : Word) : Except DecodeReject Instr :=
  if w = 0x0000 then .ok .halt
  else if w = 0x00EE then .ok .ret
  else .error (.unsupportedControlWord w)

/-- Second level, ALU group: `op` selects (R58). -/
def decodeAlu (f : Fields) : Except DecodeReject Instr :=
  let x := regOfField f.x
  let y := regOfField f.y
  if f.op = 0x0 then .ok (.move x y)
  else if f.op = 0x1 then .ok (.or x y)
  else if f.op = 0x2 then .ok (.and x y)
  else if f.op = 0x3 then .ok (.xor x y)
  else if f.op = 0x4 then .ok (.add x y)
  else if f.op = 0x5 then .ok (.sub x y)
  else .error (.unsupportedAluOp f.op)

/-- `Decode`: first level on `family`, then the group's second level (R54, R56). -/
def decodeWord (w : Word) : Except DecodeReject Instr :=
  let f := splitWord w
  if f.family = 0x0 then decodeControl w
  else if f.family = 0x2 then .ok (.call f.addr12)
  else if f.family = 0x8 then decodeAlu f
  else .error (.unsupportedFamily f.family)

/-- The decoder on bytes: every instruction is its first two, high byte first; the rest is handed back (R50). -/
def decodeBytes : List Byte → Except DecodeReject (Instr × List Byte)
  | hi :: lo :: rest =>
    match decodeWord (wordOfBytes hi lo) with
    | .ok i => .ok (i, rest)
    | .error e => .error e
  | _ => .error .truncated

/-- The word of an ALU instruction: 0x8000 + 256 X + 16 Y + k (R64). -/
def encodeAlu (k : Nat) (x y : Reg) : Word := BitVec.ofNat 16 (0x8000 + 256 * x.val + 16 * y.val + k)

/-- `enc`, the inverse of the decoder on the nine instructions (R64). -/
def encode : Instr → Word
  | .halt => 0x0000
  | .ret => 0x00EE
  | .call n => BitVec.ofNat 16 (0x2000 + n.toNat)
  | .move x y => encodeAlu 0 x y
  | .or x y => encodeAlu 1 x y
  | .and x y => encodeAlu 2 x y
  | .xor x y => encodeAlu 3 x y
  | .add x y => encodeAlu 4 x y
  | .sub x y => encodeAlu 5 x y

/-- The two bytes of an instruction in memory, high byte at the lower address (R50, R64). -/
def encodeBytes (i : Instr) : List Byte := [highByte (encode i), lowByte (encode i)]

/-- The instruction word whose low `nbits` bits are those of `w` and whose other bits are 0. -/
def tableWord (nbits w : Nat) : Word := BitVec.ofNat 16 (w % 2 ^ nbits)

/-- What the decoder reads from an instruction whose bits are `w`, numbered as the opcode table numbers them. -/
def decodeTableWord (nbits w : Nat) : Option Instr :=
  match decodeBytes [highByte (tableWord nbits w), lowByte (tableWord nbits w)] with
  | .ok (i, _) => some i
  | .error _ => none

/-- Decimal digits of a register index in a listing (R62). -/
def regText (x : Reg) : String := "r" ++ toString x.val

/-- One hexadecimal digit of a listing (R62). -/
def hexDigit (n : Nat) : String :=
  ["0", "1", "2", "3", "4", "5", "6", "7", "8", "9", "A", "B", "C", "D", "E", "F"].getD (n % 16) "0"

/-- The assembly notation of an instruction (R62): operand `x` first, registers in decimal, addresses as three hexadecimal
digits (three digits in capitals are a DESIGN CHOICE, safe: notes/assumptions/11.md). -/
def asmText (i : Instr) : String :=
  match i with
  | .halt | .ret => i.mnemonic
  | .call n => i.mnemonic ++ " 0x" ++ hexDigit (n.toNat / 256) ++ hexDigit (n.toNat / 16) ++ hexDigit n.toNat
  | .move x y | .or x y | .and x y | .xor x y | .add x y | .sub x y =>
    i.mnemonic ++ " " ++ regText x ++ "," ++ regText y

end Sys2Proof
end

