-- ==== Sys2Proof/Config.lean ====
section
/-! DEFINITION. What is fixed for the machine and no part of its state (spec/00_scope.md R4, parameter table), and the two
values the spec leaves open, as constants without a body: a statement about them holds for every value. -/

namespace Sys2Proof

/-- `RESET_PC`: the program counter after reset, the address of the first fetch (R24, R171, decision D11). -/
def Config.resetPc : Word := 0x0000

/-- `FLAG_REG`: the register that receives the flag of ADD and SUB (R12). -/
def Config.flagReg : Reg := 15

/-- FREE VALUE (DESIGN CHOICE, safe: notes/assumptions/1.md). `MEM_IMAGE` at an address the loader did not write: the byte a fetch reads there. The spec
leaves it unspecified and forbids assuming it zero (R31, U1); fetching it is no failure (R151). -/
opaque Config.unloadedByte (addr : Nat) : Byte

/-- FREE VALUE (DESIGN CHOICE, safe: notes/assumptions/3.md). What the host reads from the call-stack entry `i` when `i >= sp`: an unspecified
value (R127), of the index and of what the entry holds. -/
opaque Config.deadStackEntry (i : Nat) (held : Word) : Word

end Sys2Proof
end

