-- ==== Sys2Proof/Machine/State.lean ====
section
/-! DEFINITION. The state of chip8-vm CORE (spec/10_state.md), the reasons a step or a host move may stop, and the state right after
reset (R24, R170). -/

namespace Sys2Proof.Machine

/-- `run_state`: whether the core executes instructions (R20). -/
inductive RunState where
  /-- after reset; the host loads memory and presets registers -/
  | idle
  /-- started; the only state in which a step executes an instruction (R77) -/
  | running
  /-- ended by HALT; terminal until reset -/
  | halted
  /-- ended by a failure; terminal until reset -/
  | faulted
deriving DecidableEq, Repr

/-- `fault.cause`: no failure, or one of the four (R21, R140). The codes 5 to 7 are never produced, so they have no name (DEDUCED, safe:
notes/assumptions/9.md). -/
inductive Cause where
  | noFailure
  | unsupportedInstruction
  | stackOverflow
  | stackUnderflow
  | outOfBounds
deriving DecidableEq, Repr

/-- The fault record (R21). -/
structure FaultRecord where
  /-- `fault.cause` -/
  cause : Cause
  /-- `fault.word`: the instruction word that failed -/
  word : Word
  /-- `fault.addr`: the fetch address of the instruction that failed -/
  addr : Word
deriving DecidableEq, Repr

/-- The fault record after reset: cause 0, word 0x0000, address 0x0000 (R24). -/
def FaultRecord.cleared : FaultRecord := ⟨.noFailure, 0x0000, 0x0000⟩

/-- The bytes of memory the loader wrote: addresses strictly rising, each below 4096 (R22, R30). An unlisted address is one the
loader did not write; its byte is unspecified (R31). -/
abbrev Memory := List Host.Cell

/-- Everything the spec gives the machine (spec/10_state.md, summary table), and the memory it runs from, which R121 lets a
model keep in its state. -/
structure State where
  /-- the general registers `r[0]` to `r[15]` (R10) -/
  r : Vector Byte 16
  /-- the program counter (R13) -/
  pc : Word
  /-- the stack pointer, 0 to 16 (R17); the type leaves out the values 17 to 31 that its 5 bits never take (U8; DEDUCED,
  safe: notes/assumptions/9.md) -/
  sp : Fin 17
  /-- the call stack `stack[0]` to `stack[15]` (R16); a popped entry keeps its value (R18) -/
  stack : Vector Word 16
  /-- `run_state` (R20) -/
  runState : RunState
  /-- the fault record (R21) -/
  fault : FaultRecord
  /-- the memory image as far as the loader wrote it (R22, R31, R121; DESIGN CHOICE, safe: notes/assumptions/6.md) -/
  mem : Memory
deriving DecidableEq, Repr

/-- Why the machine stops without a next state. No instruction and no step raises it: the four failures of the spec are next
states, with `run_state = FAULTED` (R140, R147). -/
inductive Fault where
  /-- Raised by the host's load move, and by nothing else, when it names a byte outside 0x000 to 0xFFF, which does not exist (R30).
  Safe: nothing is loaded (DESIGN CHOICE, notes/assumptions/4.md). -/
  | noSuchAddress (addr : Nat)
deriving DecidableEq, Repr

/-- What the model refuses. No instruction is refused. -/
inductive Refusal where
  /-- An instruction without a meaning, in an arm of `exec`; no arm uses it now. Safe: the run stops. -/
  | notModelled (mnemonic : String)
  /-- Raised by a host move the spec does not give the host in this run state: presetting a register or loading memory while
  the core is not IDLE (R126, R129, R131, U10). Safe: such a move is outside every claim (DESIGN CHOICE,
  notes/assumptions/4.md). -/
  | hostMoveNotAllowed (runState : RunState)
deriving DecidableEq, Repr

/-- The outcome of an instruction, a step or a host move. -/
abbrev Result := Host.Outcome State Fault Refusal

/-- The machine right after reset (R24, R170, R171), with a memory that lists nothing. The call-stack entries, which the
spec leaves unspecified, are zero: DESIGN CHOICE, unsafe, notes/assumptions/2.md. -/
def State.reset : State where
  r := Vector.replicate 16 0x00
  pc := Config.resetPc
  sp := 0
  stack := Vector.replicate 16 0x0000
  runState := .idle
  fault := FaultRecord.cleared
  mem := []

end Sys2Proof.Machine
end

