-- ==== Sys2Proof/Machine/Ops.lean ====
section
/-! DEFINITION. The named operations over memory, registers, program counter and call stack; the fetch (spec/40_instruction_cycle.md
R71 to R73); raising a failure, the one shared trap entry (spec/60_exceptions.md R145 to R147). There is no return from a failure
(R149), so none stands beside it; what leaves FAULTED is the host's reset. -/

namespace Sys2Proof.Machine

/-! ### Memory -/

/-- The byte the loader wrote at an address, `none` where it wrote none. -/
def Memory.read? : Memory → Nat → Option Byte
  | [], _ => none
  | (b, v) :: m, a => if a = b then some v else Memory.read? m a

/-- The loader writes one byte; the list stays in rising order of addresses. -/
def Memory.write : Memory → Nat → Byte → Memory
  | [], a, v => [(a, v)]
  | (b, w) :: m, a, v =>
    if a < b then (a, v) :: (b, w) :: m
    else if a = b then (a, v) :: m
    else (b, w) :: Memory.write m a v

/-- The loader writes one instruction word, high byte at the lower address (R31, R32). -/
def Memory.writeWord (m : Memory) (a : Nat) (w : Word) : Memory :=
  Memory.write (Memory.write m a (highByte w)) (a + 1) (lowByte w)

/-- The loader writes instruction words one after the other from a base address (R31). -/
def Memory.writeWords (m : Memory) (base : Nat) : List Word → Memory
  | [] => m
  | w :: ws => Memory.writeWords (Memory.writeWord m base w) (base + 2) ws

/-- The addresses rise strictly, start at `low` or above and end below 4096. -/
def Memory.wfFrom : Nat → Memory → Bool
  | _, [] => true
  | low, (a, _) :: m => decide (low ≤ a) && decide (a < 0x1000) && Memory.wfFrom (a + 1) m

/-- The canonical form: addresses strictly rising, each one of the 4096 that exist (R30). An unlisted address holds no
value, so no entry can equal one. -/
def Memory.wf (m : Memory) : Bool := Memory.wfFrom 0 m

/-- `mem[a]` as the core sees it: the byte the loader wrote, else a free value (R31, U1). The one definition of what an unlisted
address reads as. -/
def State.memByte (s : State) (a : Nat) : Byte := (s.mem.read? a).getD (Config.unloadedByte a)

/-! ### Registers, program counter -/

/-- Read `r[x]` (R10). No register is hard-wired. -/
def State.reg (s : State) (x : Reg) : Byte := s.r[x]

/-- `r[x] <- v` (R10). -/
def State.setReg (s : State) (x : Reg) (v : Byte) : State := { s with r := s.r.set x.val v x.isLt }

/-- `pc <- v` (R14). -/
def State.setPc (s : State) (v : Word) : State := { s with pc := v }

/-- `run_state <- v` (R20). -/
def State.setRunState (s : State) (v : RunState) : State := { s with runState := v }

/-! ### Fetch and advance -/

/-- A step executes an instruction only while `run_state = RUNNING` (R77). -/
def State.isRunning (s : State) : Bool := s.runState == .running

/-- The bounds check: both bytes of the word are inside memory exactly when `pc <= 0x0FFE` (R35, R71). -/
def State.fetchInBounds (s : State) : Bool := decide (s.pc.toNat ≤ 0x0FFE)

/-- `MemRead(pc, 2)`: the bytes at `pc` and `pc + 1`, the first the high one, whatever the parity of `pc` (R32, R33, R72). -/
def State.fetchWord (s : State) : Word := wordOfBytes (s.memByte s.pc.toNat) (s.memByte (s.pc.toNat + 1))

/-- `pc <- pc + 2`, after the fetch and before dispatch (R73). -/
def State.advance (s : State) : State := s.setPc (s.pc + 2)

/-- The fetch address `a` of the instruction being executed: during its behaviour `pc = a + 2` (R14, R73; DEDUCED, safe:
notes/assumptions/7.md). -/
def State.fetchAddr (s : State) : Word := s.pc - 2

/-! ### Failures -/

/-- Raise a failure: `run_state <- FAULTED`, the fault record filled, and no more (R145, R147). -/
def State.raise (s : State) (cause : Cause) (word addr : Word) : State :=
  { s with runState := .faulted, fault := ⟨cause, word, addr⟩ }

/-- `OutOfBounds`: no word was fetched, `pc` is not advanced (R144, R145, R146). -/
def State.raiseOutOfBounds (s : State) : State := s.raise .outOfBounds 0x0000 s.pc

/-- `UnsupportedInstruction`, raised after the advance, with the word and its fetch address (R141, R145). -/
def State.raiseUnsupported (s : State) (word : Word) : State := s.raise .unsupportedInstruction word s.fetchAddr

/-! ### Call stack -/

/-- Push: the check `sp = 16` comes before the push (R92, R142); then `stack[sp] <- v` and `sp <- sp + 1`. -/
def State.push? (s : State) (v : Word) : Option State :=
  if h : s.sp.val = 16 then none
  else some { s with stack := s.stack.set s.sp.val v (by omega), sp := ⟨s.sp.val + 1, by omega⟩ }

/-- Pop: the check `sp = 0` comes first (R91, R143); then `sp <- sp - 1` and the entry there, which is not cleared (R18). -/
def State.pop? (s : State) : Option (Word × State) :=
  if h : s.sp.val = 0 then none
  else some (s.stack[s.sp.val - 1], { s with sp := ⟨s.sp.val - 1, by omega⟩ })

/-! ### Placing one word for the next step -/

/-- `s` with the word `v` stored where the next fetch reads, and started. A core that is not RUNNING executes nothing, and one
whose `pc` is above 0x0FFE fetches nothing (R77, R71); so the run state becomes RUNNING and such a `pc` becomes the
entry point. Nothing else changes (DESIGN CHOICE, safe: notes/assumptions/5.md). -/
def State.placeWord (s : State) (v : Word) : State :=
  let s := if s.fetchInBounds then s else s.setPc Config.resetPc
  { s with runState := .running, mem := s.mem.writeWord s.pc.toNat v }

end Sys2Proof.Machine
end

