-- ==== Sys2Proof/Machine/Operands.lean ====
section
/-! DEFINITION. The operand forms (spec/30_encoding.md R53): a register pair and one absolute address. There is no other. The two
register operands are read together, before any write (spec/42_alu.md R106). -/

namespace Sys2Proof.Machine

/-- The operands `p = r[x]` and `q = r[y]`, both from the state before the instruction (R106). -/
def State.operands (s : State) (x y : Reg) : Byte × Byte := (s.reg x, s.reg y)

/-- The CALL target: `addr12` zero-extended to 16 bits, absolute, neither scaled nor made even (R53). -/
def callTarget (n : Addr12) : Word := n.setWidth 16

end Sys2Proof.Machine
end

