-- ==== Sys2Proof/Machine/Flags.lean ====
section
/-! DEFINITION. The arithmetic of ADD and SUB and their flags (spec/42_alu.md R104, R105, R107): the exact result as an integer, then
narrowed. There is no other flag (spec/10_state.md R12). -/

namespace Sys2Proof.Machine

/-- A flag is the whole byte 0x00 or 0x01 (R12). -/
def flagByte (b : Bool) : Byte := if b then 0x01 else 0x00

/-- `(p + q) mod 256` (R104). -/
def addResult (p q : Byte) : Byte := BitVec.ofNat 8 (p.toNat + q.toNat)

/-- The carry of ADD: 1 if the exact sum exceeds 255 (R104). -/
def addFlag (p q : Byte) : Byte := flagByte (decide (p.toNat + q.toNat > 255))

/-- `(p - q) mod 256`, the non-negative remainder (R105, R107). -/
def subResult (p q : Byte) : Byte := BitVec.ofInt 8 ((p.toNat : Int) - (q.toNat : Int))

/-- The inverted borrow of SUB: 1 if `p >= q` (R105). -/
def subFlag (p q : Byte) : Byte := flagByte (decide (p.toNat ≥ q.toNat))

/-- Write `r[x] <- result`, then the flag register last (R104, R105, R108). -/
def State.setRegThenFlag (s : State) (x : Reg) (result flag : Byte) : State :=
  (s.setReg x result).setReg Config.flagReg flag

end Sys2Proof.Machine
end

