-- ==== Sys2Proof/Machine/Alu.lean ====
section
/-! DEFINITION. The six ALU instructions (spec/42_alu.md). None can fail (R110); none touches `pc`, `sp`, the call stack, memory or
`run_state` (R106). -/

namespace Sys2Proof.Machine

/-- The shared form of MOVE, OR, AND, XOR: `r[x] <- f(p, q)`, the flag register untouched unless `x = 0xF` (R12, R106). -/
def execPlain (f : Byte → Byte → Byte) (x y : Reg) (s : State) : Result :=
  let (p, q) := s.operands x y
  .next (s.setReg x (f p q))

/-- The shared form of ADD and SUB: `r[x] <- f(p, q)`, then `r[0xF] <- flag(p, q)` (R106, R108). -/
def execFlagged (f flag : Byte → Byte → Byte) (x y : Reg) (s : State) : Result :=
  let (p, q) := s.operands x y
  .next (s.setRegThenFlag x (f p q) (flag p q))

/-- MOVE: `r[x] <- r[y]` (R100). -/
def execMove (x y : Reg) (s : State) : Result := execPlain (fun _ q => q) x y s

/-- OR: `r[x] <- r[x] | r[y]` (R101). -/
def execOr (x y : Reg) (s : State) : Result := execPlain (fun p q => p ||| q) x y s

/-- AND: `r[x] <- r[x] & r[y]` (R102). -/
def execAnd (x y : Reg) (s : State) : Result := execPlain (fun p q => p &&& q) x y s

/-- XOR: `r[x] <- r[x] ^ r[y]` (R103). -/
def execXor (x y : Reg) (s : State) : Result := execPlain (fun p q => p ^^^ q) x y s

/-- ADD: `r[x] <- (r[x] + r[y]) mod 256`, then the carry to `r[0xF]` (R104, R108). -/
def execAdd (x y : Reg) (s : State) : Result := execFlagged addResult addFlag x y s

/-- SUB: `r[x] <- (r[x] - r[y]) mod 256`, then the inverted borrow to `r[0xF]` (R105, R108). -/
def execSub (x y : Reg) (s : State) : Result := execFlagged subResult subFlag x y s

end Sys2Proof.Machine
end

