-- ==== Sys2Proof/Machine/Control.lean ====
section
/-! DEFINITION. The control-flow instructions HALT, RETURN, CALL (spec/41_control_flow.md). On entry `pc = a + 2` (R73). -/

namespace Sys2Proof.Machine

/-- HALT: `run_state <- HALTED` and nothing else (R90). -/
def execHalt (s : State) : Result := .next (s.setRunState .halted)

/-- RETURN: `StackUnderflow` on an empty stack, else the popped entry goes to `pc` as it is (R91, R143). -/
def execReturn (s : State) : Result :=
  match s.pop? with
  | none => .next (s.raise .stackUnderflow (encode .ret) s.fetchAddr)
  | some (v, t) => .next (t.setPc v)

/-- CALL: `StackOverflow` on a full stack, else push `pc` (already `a + 2`) and go to the target (R92, R142). -/
def execCall (n : Addr12) (s : State) : Result :=
  match s.push? s.pc with
  | none => .next (s.raise .stackOverflow (encode (.call n)) s.fetchAddr)
  | some t => .next (t.setPc (callTarget n))

end Sys2Proof.Machine
end

