-- ==== Sys2Proof/Machine/Step.lean ====
section
/-! DEFINITION. One step of the core (spec/40_instruction_cycle.md R70), and the placing of one instruction where it is fetched. -/

namespace Sys2Proof.Machine

/-- `Step` (R70): nothing unless RUNNING (R77); the bounds check (R71); fetch (R72); advance (R73); decode and dispatch, or
`UnsupportedInstruction` with the word and the address it was fetched from (R75). -/
def step (s : State) : Host.Outcome State Fault Refusal :=
  if s.isRunning then
    if s.fetchInBounds then
      match decodeWord s.fetchWord with
      | .ok i => exec i s.advance
      | .error _ => .next (s.advance.raiseUnsupported s.fetchWord)
    else .next s.raiseOutOfBounds
  else .next s

/-- `s` with the instruction whose table bits are `w` placed where `step` fetches next (notes/assumptions/5.md). -/
def State.withFetchWord (s : State) (nbits w : Nat) : State := s.placeWord (tableWord nbits w)

end Sys2Proof.Machine
end

