-- ==== Sys2Proof/Machine/HostPort.lean ====
section
/-! DEFINITION. The host's moves and reads (spec/50_interfaces.md R124 to R131): what the outside can do to the core and see of
it. `step` takes no input; a run is host moves while IDLE, start, steps, reads (spec/40_instruction_cycle.md R78);
that a reset comes between two steps is DESIGN CHOICE, unsafe, notes/assumptions/8.md. -/

namespace Sys2Proof.Machine

/-- A move of the host. -/
inductive HostMove where
  /-- reset (R124) -/
  | reset
  /-- start (R125) -/
  | start
  /-- write one general register (R126) -/
  | presetReg (x : Reg) (v : Byte)
  /-- write one byte of memory (DESIGN CHOICE, safe: notes/assumptions/10.md) -/
  | loadByte (addr : Nat) (v : Byte)
  /-- write instruction words from a base address (R31, R131) -/
  | loadProgram (base : Nat) (words : List Word)
deriving DecidableEq, Repr

/-- The status outputs, always readable (R127). -/
structure Status where
  /-- `run_state` as a number -/
  runState : BitVec 2
  halted : Bool
  faulted : Bool
  /-- `fault.cause` as a number -/
  cause : BitVec 3
  word : Word
  addr : Word
deriving DecidableEq, Repr

/-- What inspection reads while the core is not RUNNING (R127). -/
structure Inspection where
  pc : Word
  sp : BitVec 5
  stack : Vector Word 16
deriving DecidableEq, Repr

/-- The 2-bit encoding of `run_state` (R20, R127). -/
def runStateCode : RunState → BitVec 2
  | .idle => 0
  | .running => 1
  | .halted => 2
  | .faulted => 3

/-- The 3-bit encoding of `fault.cause` (R140). -/
def causeCode : Cause → BitVec 3
  | .noFailure => 0
  | .unsupportedInstruction => 1
  | .stackOverflow => 2
  | .stackUnderflow => 3
  | .outOfBounds => 4

/-- Reset: every piece of core state to its reset value, from any state; memory untouched (R124, R170). -/
def hostReset (s : State) : State := { State.reset with mem := s.mem }

/-- Start: IDLE to RUNNING; ignored in every other state (R125). -/
def hostStart (s : State) : State := if s.runState = .idle then s.setRunState .running else s

/-- Preset a register, while IDLE only (R126). -/
def hostPreset (x : Reg) (v : Byte) (s : State) : Result :=
  if s.runState = .idle then .next (s.setReg x v) else .refused (.hostMoveNotAllowed s.runState)

/-- Load one byte, while IDLE only; an address outside memory does not exist (R30, R131). -/
def hostLoadByte (addr : Nat) (v : Byte) (s : State) : Result :=
  if s.runState ≠ .idle then .refused (.hostMoveNotAllowed s.runState)
  else if 0x1000 ≤ addr then .fault (.noSuchAddress addr)
  else .next { s with mem := s.mem.write addr v }

/-- Load instruction words from a base address, while IDLE only; all of them must lie in memory. The core validates nothing
else (R31, R131). -/
def hostLoadProgram (base : Nat) (words : List Word) (s : State) : Result :=
  if s.runState ≠ .idle then .refused (.hostMoveNotAllowed s.runState)
  else if 0x1000 < base + 2 * words.length then .fault (.noSuchAddress (max base 0x1000))
  else .next { s with mem := s.mem.writeWords base words }

/-- What a move of the host does (R124, R125, R126, R129, R131). -/
def hostAct (m : HostMove) (s : State) : Result :=
  match m with
  | .reset => .next (hostReset s)
  | .start => .next (hostStart s)
  | .presetReg x v => hostPreset x v s
  | .loadByte addr v => hostLoadByte addr v s
  | .loadProgram base words => hostLoadProgram base words s

/-- A sequence of host moves, ending at the first that stops. -/
def hostActs : List HostMove → State → Result
  | [], s => .next s
  | m :: ms, s =>
    match hostAct m s with
    | .next t => hostActs ms t
    | .fault r => .fault r
    | .refused r => .refused r

/-- The status outputs (R127). -/
def hostStatus (s : State) : Status where
  runState := runStateCode s.runState
  halted := s.runState == .halted
  faulted := s.runState == .faulted
  cause := causeCode s.fault.cause
  word := s.fault.word
  addr := s.fault.addr

/-- Read a register; no read while RUNNING (R128, R129). -/
def hostReadReg (x : Reg) (s : State) : Option Byte := if s.runState = .running then none else some (s.reg x)

/-- The stack entry `i` as the host reads it: the entry if it is in use, else an unspecified value (R18, R127). -/
def inspectedEntry (s : State) (i : Fin 16) : Word :=
  if i.val < s.sp.val then s.stack[i] else Config.deadStackEntry i.val s.stack[i]

/-- Inspect `pc`, `sp` and the stack entries; not while RUNNING (R127, R129). -/
def hostInspect (s : State) : Option Inspection :=
  if s.runState = .running then none
  else some { pc := s.pc, sp := BitVec.ofNat 5 s.sp.val, stack := Vector.ofFn (inspectedEntry s) }

/-- The launch state: the state at the moment of start, from the register values and the memory image the host left (R176). -/
def launch (regs : Vector Byte 16) (image : Memory) : State :=
  { State.reset with r := regs, mem := image, runState := .running }

end Sys2Proof.Machine
end

