-- ==== Sys2Proof/Safety.lean ====
section
/-! DEFINITION. The terms the statements use: the invariant of the machine, states equal but for dead call-stack entries, the bound
on a run, and the pseudocode of one step (spec/40_instruction_cycle.md R70) written over plain numbers. -/

namespace Sys2Proof.Machine

/-! ### Frames -/

/-- Nothing but general registers differs: program counter, call stack, run state, fault record and every byte of memory
are as before (R106). -/
structure OnlyRegistersDiffer (s t : State) : Prop where
  pc : t.pc = s.pc
  sp : t.sp = s.sp
  stack : t.stack = s.stack
  runState : t.runState = s.runState
  fault : t.fault = s.fault
  mem : t.mem = s.mem
  bytes : ∀ a, t.memByte a = s.memByte a

/-- An instruction that completes by writing `v` to `r[x]` and nothing else. -/
def WritesOnly (i : Instr) (x : Reg) (v : Byte) (s : State) : Prop :=
  ∃ t, exec i s = .next t ∧ (∀ z, t.reg z = if z = x then v else s.reg z) ∧ OnlyRegistersDiffer s t

/-- The six ALU instructions: destination, and whether the instruction also writes the flag register (R11, R12). -/
def aluDest : Instr → Option (Reg × Bool)
  | .halt | .ret | .call _ => none
  | .move x _ | .or x _ | .and x _ | .xor x _ => some (x, false)
  | .add x _ | .sub x _ => some (x, true)

/-! ### Decoding and failing -/

/-- The word decodes to an instruction. -/
def decodes (w : Word) : Bool :=
  match decodeWord w with
  | .ok _ => true
  | .error _ => false

/-- The fetched word is not one of the nine instructions, by its fields, as R141 words it. -/
abbrev HasNoHandler (w : Word) : Prop :=
  ((splitWord w).family ≠ 0x0 ∧ (splitWord w).family ≠ 0x2 ∧ (splitWord w).family ≠ 0x8) ∨
    ((splitWord w).family = 0x0 ∧ w ≠ 0x0000 ∧ w ≠ 0x00EE) ∨ ((splitWord w).family = 0x8 ∧ 0x6 ≤ (splitWord w).op.toNat)

/-- The word of a register-pair instruction as R100 to R105 write it: `base | x << 8 | y << 4`. -/
def pairWord (base : Word) (x y : Reg) : Word := base ||| BitVec.ofNat 16 x.val <<< 8 ||| BitVec.ofNat 16 y.val <<< 4

/-- The word of a CALL as R92 writes it: `0x2000 | addr12`. -/
def callWord (n : Addr12) : Word := 0x2000 ||| n.setWidth 16

/-- The failure a RUNNING core's next step raises, by the conditions of R140 in the order of R148; `none` if it raises none. -/
def stepFailure (s : State) : Option Cause :=
  if 0x0FFE < s.pc.toNat then some .outOfBounds
  else if wellFormedWord s.fetchWord = false then some .unsupportedInstruction
  else if s.fetchWord &&& 0xF000 = 0x2000 ∧ s.sp.val = 16 then some .stackOverflow
  else if s.fetchWord = 0x00EE ∧ s.sp.val = 0 then some .stackUnderflow
  else none

/-! ### Runs -/

/-- `n` steps (R78). -/
def runSteps (n : Nat) (s : State) : Result := Host.Core.run Sys2Proof.core n s

/-- The behaviours of a list of instructions, one after the other. -/
def execAll : List Instr → State → Result
  | [], s => .next s
  | i :: is, s =>
    match exec i s with
    | .next t => execAll is t
    | .fault r => .fault r
    | .refused r => .refused r

/-- An instruction is a CALL. -/
def isCall : Instr → Bool
  | .call _ => true
  | .halt | .ret | .move _ _ | .or _ _ | .and _ _ | .xor _ _ | .add _ _ | .sub _ _ => false

/-- What the host last wrote to a register in a sequence of moves, `none` where it wrote nothing (R176). -/
def lastPreset (z : Reg) : List HostMove → Option Byte
  | [] => none
  | .presetReg x v :: ms => (lastPreset z ms).orElse fun _ => if x = z then some v else none
  | .reset :: ms | .start :: ms | .loadByte _ _ :: ms | .loadProgram _ _ :: ms => lastPreset z ms

/-! ### The invariant -/

/-- What the fault record says of a FAULTED state (R145, R146): which failure, of which word, fetched where. -/
def FaultExplained (s : State) : Prop :=
  match s.fault.cause with
  | .noFailure => False
  | .unsupportedInstruction =>
    wellFormedWord s.fault.word = false ∧ s.fault.addr.toNat ≤ 0x0FFE ∧ s.pc = s.fault.addr + 2
  | .stackOverflow =>
    (∃ n, s.fault.word = encode (.call n)) ∧ s.sp.val = 16 ∧ s.fault.addr.toNat ≤ 0x0FFE ∧ s.pc = s.fault.addr + 2
  | .stackUnderflow =>
    s.fault.word = 0x00EE ∧ s.sp.val = 0 ∧ s.fault.addr.toNat ≤ 0x0FFE ∧ s.pc = s.fault.addr + 2
  | .outOfBounds => s.fault.word = 0x0000 ∧ s.fault.addr = s.pc ∧ 0x0FFE < s.pc.toNat

/-- What holds in every state reached from reset by host moves and steps. -/
structure State.Inv (s : State) : Prop where
  /-- memory has its canonical form -/
  mem : s.mem.wf = true
  /-- `pc` never exceeds 0x1000 (R15) -/
  pc : s.pc.toNat ≤ 0x1000
  /-- an entry in use holds the address after a CALL, 0x0002 to 0x1000 (R91) -/
  stack : ∀ i : Fin 16, i.val < s.sp.val → 2 ≤ s.stack[i].toNat ∧ s.stack[i].toNat ≤ 0x1000
  /-- outside FAULTED the fault record is as reset left it (R21) -/
  clear : s.runState ≠ .faulted → s.fault = FaultRecord.cleared
  /-- in FAULTED it tells the failure -/
  told : s.runState = .faulted → FaultExplained s

/-! ### Dead call-stack entries -/

/-- Equal in everything but the call-stack entries at and above `sp` (R18). -/
structure SameLive (s t : State) : Prop where
  r : s.r = t.r
  pc : s.pc = t.pc
  sp : s.sp = t.sp
  live : ∀ i : Fin 16, i.val < s.sp.val → s.stack[i] = t.stack[i]
  runState : s.runState = t.runState
  fault : s.fault = t.fault
  mem : s.mem = t.mem

/-! ### The bound on a run -/

/-- `B(k)` of R184, as a function of `16 - k`: `B(16) = 2048`, `B(k) = 2048 * (B(k + 1) + 2)`. -/
def activationBound : Nat → Nat
  | 0 => 2048
  | j + 1 => 2048 * (activationBound j + 2)

/-! ### The pseudocode of one step over plain numbers -/

/-- The core's state as plain numbers, with nothing in common with `State` but the names (R5). -/
structure PlainState where
  r : Nat → Nat
  pc : Nat
  sp : Nat
  stack : Nat → Nat
  runState : RunState
  cause : Nat
  word : Nat
  addr : Nat

/-- `f[i] <- v`. -/
def put (f : Nat → Nat) (i v : Nat) : Nat → Nat := fun j => if j = i then v else f j

/-- `raise <Failure>(word, a)` (R5, R145). -/
def PlainState.raise (s : PlainState) (cause word addr : Nat) : PlainState :=
  { s with runState := .faulted, cause := cause, word := word, addr := addr }

/-- `Step()` as R70 writes it, over a memory of plain numbers. -/
def plainStep (mem : Nat → Nat) (s : PlainState) : PlainState :=
  if s.runState ≠ .running then s
  else
    let a := s.pc
    if a > 0x0FFE then s.raise 4 0 a
    else
      let word := 256 * mem a + mem (a + 1)
      let s := { s with pc := a + 2 }
      let family := word / 4096
      let x := word / 256 % 16
      let y := word / 16 % 16
      let op := word % 16
      let p := s.r x
      let q := s.r y
      if family = 0x0 then
        if word = 0x0000 then { s with runState := .halted }
        else if word = 0x00EE then
          if s.sp = 0 then s.raise 3 word a
          else { s with sp := s.sp - 1, pc := s.stack (s.sp - 1) }
        else s.raise 1 word a
      else if family = 0x2 then
        if s.sp = 16 then s.raise 2 word a
        else { s with stack := put s.stack s.sp s.pc, sp := s.sp + 1, pc := word % 4096 }
      else if family = 0x8 then
        if op = 0x0 then { s with r := put s.r x q }
        else if op = 0x1 then { s with r := put s.r x (p ||| q) }
        else if op = 0x2 then { s with r := put s.r x (p &&& q) }
        else if op = 0x3 then { s with r := put s.r x (p ^^^ q) }
        else if op = 0x4 then { s with r := put (put s.r x ((p + q) % 256)) 0xF (if p + q > 255 then 1 else 0) }
        else if op = 0x5 then { s with r := put (put s.r x ((p + 256 - q) % 256)) 0xF (if p ≥ q then 1 else 0) }
        else s.raise 1 word a
      else s.raise 1 word a

/-- A state read as plain numbers. -/
def State.plain (s : State) : PlainState where
  r := fun i => if h : i < 16 then (s.reg ⟨i, h⟩).toNat else 0
  pc := s.pc.toNat
  sp := s.sp.val
  stack := fun i => if h : i < 16 then s.stack[i].toNat else 0
  runState := s.runState
  cause := (causeCode s.fault.cause).toNat
  word := s.fault.word.toNat
  addr := s.fault.addr.toNat

end Sys2Proof.Machine
end

