-- ==== Sys2Proof/Certificates/Slice0/Obligations.lean ====
section
/-! DEFINITION. The statements about chip8-vm CORE, made from the numbered rules of spec/. Each docstring names the rule it
formalises. A statement that rests on a choice of the model says so. -/

open Sys2Proof Sys2Proof.Machine

/-! ### Control flow (spec/41_control_flow.md) -/

/-- R90. HALT sets `run_state` to HALTED and changes nothing else; no further instruction is fetched, and only reset
leaves HALTED, where the host reads the registers. -/
def Obligations.HaltStopsTheCore : Prop :=
  decodeWord 0x0000 = .ok .halt ∧
  (∀ s, exec .halt s = .next { s with runState := .halted }) ∧
  (∀ s, s.runState = .running → s.pc.toNat ≤ 0x0FFE → s.fetchWord = 0x0000 →
    step s = .next { s with pc := s.pc + 2, runState := .halted }) ∧
  (∀ s, s.runState = .halted →
    step s = .next s ∧ (∀ x, hostReadReg x s = some (s.reg x)) ∧
    ∀ m t, hostAct m s = .next t → m ≠ .reset → t.runState = .halted)

/-- R91. RETURN with `sp = 0` raises StackUnderflow and leaves `sp`, the stack and `pc = a + 2`; otherwise `sp` falls by one and
`pc` becomes the entry there, unchecked (decision D17 of the spec) and not cleared; an entry above 0x0FFE makes the next fetch raise
OutOfBounds. (That an entry in use is 0x0002 to 0x1000 the spec derives; StepKeepsInvariant says it.) -/
def Obligations.ReturnPopsTheCallStack : Prop :=
  decodeWord 0x00EE = .ok .ret ∧
  (∀ (s : State) (k : Fin 16), s.sp.val = k.val + 1 →
    exec .ret s = .next { s with sp := k.castSucc, pc := s.stack[k] }) ∧
  (∀ s : State, s.sp.val = 0 →
    exec .ret s = .next { s with runState := .faulted, fault := ⟨.stackUnderflow, 0x00EE, s.pc - 2⟩ }) ∧
  (∀ s : State, s.runState = .running → s.pc.toNat ≤ 0x0FFE → s.fetchWord = 0x00EE →
    (s.sp.val = 0 →
      step s = .next { s with pc := s.pc + 2, runState := .faulted, fault := ⟨.stackUnderflow, 0x00EE, s.pc⟩ }) ∧
    ∀ k : Fin 16, s.sp.val = k.val + 1 →
      step s = .next { s with sp := k.castSucc, pc := s.stack[k] } ∧
      (0x0FFE < s.stack[k].toNat →
        step { s with sp := k.castSucc, pc := s.stack[k] } =
          .next { s with sp := k.castSucc, pc := s.stack[k], runState := .faulted,
                         fault := ⟨.outOfBounds, 0x0000, s.stack[k]⟩ }))

/-- R92. CALL with `sp = 16` raises StackOverflow before any push; otherwise it pushes `pc` (already `a + 2`), raises `sp` by one and
sets `pc` to the zero-extended target, whatever its parity; a target above 0x0FFE makes the next fetch raise OutOfBounds; a CALL
to its own address pushes `a + 2` each time and fails on its 17th execution. -/
def Obligations.CallPushesAndJumps : Prop :=
  (∀ n, decodeWord (callWord n) = .ok (.call n)) ∧
  (∀ (s : State) (n : Addr12) (k : Fin 16), s.sp.val = k.val →
    exec (.call n) s = .next { s with stack := s.stack.set k.val s.pc, sp := k.succ, pc := n.setWidth 16 }) ∧
  (∀ (s : State) (n : Addr12), s.sp.val = 16 →
    exec (.call n) s = .next { s with runState := .faulted, fault := ⟨.stackOverflow, callWord n, s.pc - 2⟩ }) ∧
  (∀ (s : State) (n : Addr12), s.runState = .running → s.pc.toNat ≤ 0x0FFE → s.fetchWord = callWord n →
    (s.sp.val = 16 →
      step s = .next { s with pc := s.pc + 2, runState := .faulted, fault := ⟨.stackOverflow, callWord n, s.pc⟩ }) ∧
    ∀ k : Fin 16, s.sp.val = k.val →
      ∃ t, step s = .next t ∧
        t = { s with stack := s.stack.set k.val (s.pc + 2), sp := k.succ, pc := n.setWidth 16 } ∧
        (0x0FFE < n.toNat → step t = .next { t with runState := .faulted, fault := ⟨.outOfBounds, 0x0000, t.pc⟩ })) ∧
  (∀ (s : State) (n : Addr12), s.runState = .running → s.pc = n.setWidth 16 → n.toNat ≤ 0x0FFE →
    s.fetchWord = callWord n → s.sp.val = 0 →
    ∃ t, runSteps 16 s = .next t ∧ t.sp.val = 16 ∧ t.runState = .running ∧ t.pc = s.pc ∧
      (∀ i : Fin 16, t.stack[i] = s.pc + 2) ∧
      runSteps 17 s =
        .next { t with pc := s.pc + 2, runState := .faulted, fault := ⟨.stackOverflow, callWord n, s.pc⟩ })

/-- R93. A CALL and then a RETURN restore `pc` to the address after the CALL and `sp` to what it was; and so does, after any number of
steps that stay deeper, the RETURN that leaves the depth the CALL entered. -/
def Obligations.ReturnUndoesItsCall : Prop :=
  (∀ (s : State) (n : Addr12), s.runState = .running → s.pc.toNat ≤ 0x0FFE → s.fetchWord = callWord n → s.sp.val < 16 →
    n.toNat ≤ 0x0FFE → s.memByte n.toNat = 0x00 → s.memByte (n.toNat + 1) = 0xEE →
    ∃ t u, step s = .next t ∧ step t = .next u ∧ u.pc = s.pc + 2 ∧ u.sp = s.sp ∧ u.runState = .running ∧ u.r = s.r) ∧
  (∀ (s t u : State) (n : Addr12) (m : Nat), s.runState = .running → s.pc.toNat ≤ 0x0FFE → s.fetchWord = callWord n →
    s.sp.val < 16 → (∀ j v, 1 ≤ j → j ≤ m → runSteps j s = .next v → s.sp.val < v.sp.val) →
    1 ≤ m → runSteps m s = .next t → t.sp.val = s.sp.val + 1 →
    t.runState = .running → t.pc.toNat ≤ 0x0FFE → t.fetchWord = 0x00EE → step t = .next u →
    u.pc = s.pc + 2 ∧ u.sp = s.sp)

/-- R94. The nesting depth is 16: from `sp = 0`, sixteen CALLs with no RETURN between them succeed, each raising `sp` by one, and a
seventeenth fails with StackOverflow; a RETURN with `sp = 0` fails with StackUnderflow. -/
def Obligations.NestingDepthIsSixteen : Prop :=
  (∀ (s : State) (is : List Instr), s.runState = .running → s.sp.val = 0 → (∀ i ∈ is, isCall i = true ∨ aluDest i ≠ none) →
    is.countP isCall ≤ 16 →
    ∃ t, execAll is s = .next t ∧ t.runState = .running ∧ t.sp.val = is.countP isCall ∧
      (is.countP isCall = 16 → ∀ n, ∃ u, exec (.call n) t = .next u ∧ u.runState = .faulted ∧
        u.fault.cause = .stackOverflow ∧ u.sp.val = 16)) ∧
  (∀ s : State, s.sp.val = 0 →
    ∃ u, exec .ret s = .next u ∧ u.runState = .faulted ∧ u.fault.cause = .stackUnderflow ∧ u.sp.val = 0)

/-- Frame of HALT, RETURN, CALL: no general register, no byte of memory; the fault record only when the instruction fails; of the
call stack only the entry at `sp`, and only by CALL (R11, R16, R34, R95). -/
def Obligations.ControlFlowFrame : Prop :=
  ∀ (s t : State) (i : Instr), aluDest i = none → exec i s = .next t →
    (∀ z, t.reg z = s.reg z) ∧ (∀ a, t.memByte a = s.memByte a) ∧ t.mem = s.mem ∧
    (t.fault = s.fault ∨ t.runState = .faulted) ∧
    (∀ k : Fin 16, (isCall i = true → k.val ≠ s.sp.val) → t.stack[k] = s.stack[k]) ∧
    (i = .halt → t.sp = s.sp ∧ t.pc = s.pc)

/-! ### ALU (spec/42_alu.md) -/

/-- R100, R101, R102, R103. MOVE, OR, AND, XOR complete from every state, write `r[y]`, the OR, the AND, the exclusive OR into `r[x]`,
and change nothing else: not the flag register unless `x = 0xF`. The words are those of the rules' encodings. -/
def Obligations.PlainAluResults : Prop :=
  ∀ (x y : Reg) (s : State),
    (decodeWord (pairWord 0x8000 x y) = .ok (.move x y) ∧ WritesOnly (.move x y) x (s.reg y) s) ∧
    (decodeWord (pairWord 0x8001 x y) = .ok (.or x y) ∧ WritesOnly (.or x y) x (s.reg x ||| s.reg y) s) ∧
    (decodeWord (pairWord 0x8002 x y) = .ok (.and x y) ∧ WritesOnly (.and x y) x (s.reg x &&& s.reg y) s) ∧
    (decodeWord (pairWord 0x8003 x y) = .ok (.xor x y) ∧ WritesOnly (.xor x y) x (s.reg x ^^^ s.reg y) s)

/-- R104. ADD completes from every state: `r[x]` is the sum modulo 256 (for `x = 0xF` see R108), `r[0xF]` is 1 if the exact sum exceeds
255 and 0 otherwise, and nothing else changes. -/
def Obligations.AddWritesSumThenCarry : Prop :=
  ∀ (x y : Reg) (s : State), decodeWord (pairWord 0x8004 x y) = .ok (.add x y) ∧
    ∃ t, exec (.add x y) s = .next t ∧
      (x ≠ 15 → (t.reg x).toNat = ((s.reg x).toNat + (s.reg y).toNat) % 256) ∧
      t.reg 15 = (if (s.reg x).toNat + (s.reg y).toNat > 255 then 0x01 else 0x00) ∧
      (∀ z, z ≠ x → z ≠ 15 → t.reg z = s.reg z) ∧ OnlyRegistersDiffer s t

/-- R105. SUB completes from every state: `r[x]` is `p - q` when `p >= q` and `p - q + 256` when `p < q` (for `x = 0xF` see R108),
`r[0xF]` is 1 if `p >= q` and 0 otherwise, and nothing else changes; there is no reverse subtract. -/
def Obligations.SubWritesDifferenceThenNotBorrow : Prop :=
  ∀ (x y : Reg) (s : State), decodeWord (pairWord 0x8005 x y) = .ok (.sub x y) ∧
    decodes (pairWord 0x8007 x y) = false ∧
    ∃ t, exec (.sub x y) s = .next t ∧
      (x ≠ 15 → (t.reg x).toNat =
        if (s.reg x).toNat ≥ (s.reg y).toNat then (s.reg x).toNat - (s.reg y).toNat
        else (s.reg x).toNat + 256 - (s.reg y).toNat) ∧
      t.reg 15 = (if (s.reg x).toNat ≥ (s.reg y).toNat then 0x01 else 0x00) ∧
      (∀ z, z ≠ x → z ≠ 15 → t.reg z = s.reg z) ∧ OnlyRegistersDiffer s t

/-- R108 (decision D8 of the spec). ADD and SUB with `x = 0xF`: the flag is written last, so `r[0xF]` holds the flag of the values from before, and the result is
lost; for `y = 0xF` too the flag is 1 iff `p >= 128` (ADD), always 1 (SUB). No other register changes. -/
def Obligations.FlagWrittenLastWhenDestination : Prop :=
  ∀ (y : Reg) (s : State),
    (∃ t, exec (.add 15 y) s = .next t ∧
      t.reg 15 = (if (s.reg 15).toNat + (s.reg y).toNat > 255 then 0x01 else 0x00) ∧
      (y = 15 → t.reg 15 = if (s.reg 15).toNat ≥ 128 then 0x01 else 0x00) ∧ ∀ z, z ≠ 15 → t.reg z = s.reg z) ∧
    (∃ t, exec (.sub 15 y) s = .next t ∧
      t.reg 15 = (if (s.reg 15).toNat ≥ (s.reg y).toNat then 0x01 else 0x00) ∧
      (y = 15 → t.reg 15 = 0x01) ∧ ∀ z, z ≠ 15 → t.reg z = s.reg z)

/-- The identities of R107, for ADD and SUB with a destination other than the flag register: `p + q = 256 * carry + result`, and
`p - q = result - 256 * (1 - flag)`. -/
def Obligations.ArithmeticIsExactWithFlag : Prop :=
  ∀ (x y : Reg) (s : State), x ≠ 15 →
    (∃ t, exec (.add x y) s = .next t ∧
      (s.reg x).toNat + (s.reg y).toNat = 256 * (t.reg 15).toNat + (t.reg x).toNat) ∧
    (∃ t, exec (.sub x y) s = .next t ∧
      ((s.reg x).toNat : Int) - (s.reg y).toNat = (t.reg x).toNat - 256 * (1 - (t.reg 15).toNat))

/-- The spec's own derivation in R111: SUB's result and flag are the low eight bits and the carry out of the 9-bit sum `p + ~q + 1`. -/
def Obligations.SubtractIsAdderWithComplement : Prop :=
  ∀ (x y : Reg) (s : State), x ≠ 15 →
    ∃ t, exec (.sub x y) s = .next t ∧
      t.reg x = BitVec.ofNat 8 ((s.reg x).toNat + (~~~(s.reg y)).toNat + 1) ∧
      (t.reg 15).toNat = ((s.reg x).toNat + (~~~(s.reg y)).toNat + 1) / 256

/-- R110. No ALU instruction fails: each completes from every state, overflow or not, without touching the run state or the fault
record; a word of family 0x8 fails only for `op` 0x6 to 0xF, before any register is written. -/
def Obligations.AluInstructionsNeverFail : Prop :=
  (∀ (i : Instr) (s : State), aluDest i ≠ none →
    ∃ t, exec i s = .next t ∧ t.runState = s.runState ∧ t.fault = s.fault) ∧
  (∀ s : State, s.runState = .running → s.pc.toNat ≤ 0x0FFE → (splitWord s.fetchWord).family = 0x8 →
    ((splitWord s.fetchWord).op.toNat ≤ 5 →
      ∃ i t, decodeWord s.fetchWord = .ok i ∧ aluDest i ≠ none ∧ step s = .next t ∧ t.runState = .running) ∧
    (6 ≤ (splitWord s.fetchWord).op.toNat →
      step s = .next { s with pc := s.pc + 2, runState := .faulted,
                              fault := ⟨.unsupportedInstruction, s.fetchWord, s.pc⟩ }))

/-- Frame of the six ALU instructions: every register but the destination, and but `r[0xF]` for ADD and SUB, is unchanged, and so is
everything that is no register (R106). -/
def Obligations.AluFrame : Prop :=
  ∀ (i : Instr) (x : Reg) (flagged : Bool) (s t : State), aluDest i = some (x, flagged) → exec i s = .next t →
    (∀ z, z ≠ x → (flagged = true → z ≠ 15) → t.reg z = s.reg z) ∧ OnlyRegistersDiffer s t

/-- R12 on flags: after ADD or SUB `r[0xF]` is the byte 0x00 or 0x01; MOVE, OR, AND, XOR leave it alone unless it is their
destination. -/
def Obligations.FlagIsWholeByte : Prop :=
  ∀ (i : Instr) (x : Reg) (flagged : Bool) (s t : State), aluDest i = some (x, flagged) → exec i s = .next t →
    (flagged = true → t.reg 15 = 0x00 ∨ t.reg 15 = 0x01) ∧ (flagged = false → x ≠ 15 → t.reg 15 = s.reg 15)

/-! ### Encoding (spec/30_encoding.md) -/

/-- R64. The encoder's formulas, that decoding inverts encoding on every instruction, in bytes with anything behind them too, and that
encoding inverts decoding on every supported word. -/
def Obligations.DecodeInvertsEncode : Prop :=
  (encode .halt = 0x0000 ∧ encode .ret = 0x00EE ∧ (∀ n, (encode (.call n)).toNat = 0x2000 + n.toNat) ∧
    ∀ x y : Reg,
      (encode (.move x y)).toNat = 0x8000 + 256 * x.val + 16 * y.val ∧
      (encode (.or x y)).toNat = 0x8000 + 256 * x.val + 16 * y.val + 1 ∧
      (encode (.and x y)).toNat = 0x8000 + 256 * x.val + 16 * y.val + 2 ∧
      (encode (.xor x y)).toNat = 0x8000 + 256 * x.val + 16 * y.val + 3 ∧
      (encode (.add x y)).toNat = 0x8000 + 256 * x.val + 16 * y.val + 4 ∧
      (encode (.sub x y)).toNat = 0x8000 + 256 * x.val + 16 * y.val + 5) ∧
  (∀ i, decodeWord (encode i) = .ok i) ∧
  (∀ i rest, decodeBytes (encodeBytes i ++ rest) = .ok (i, rest)) ∧
  (∀ w i, decodeWord w = .ok i → encode i = w) ∧
  (∀ i, ∃ hi lo : Byte, encodeBytes i = [hi, lo] ∧ (encode i).toNat = 256 * hi.toNat + lo.toNat)

/-- R55. A word is the instruction of a row exactly when the row's match and mask say so; no two rows match one word; a word
that no row matches is no instruction. -/
def Obligations.DecoderIsTheOpcodeTable : Prop :=
  (∀ (w : Word), ∀ row ∈ opcodeTable,
    (w &&& row.mask = row.pattern ↔ ∃ i, decodeWord w = .ok i ∧ i.mnemonic = row.mnemonic)) ∧
  (∀ (w : Word), opcodeTable.countP (·.matchesWord w) ≤ 1) ∧
  (∀ (w : Word), opcodeTable.countP (·.matchesWord w) = 0 ↔ decodes w = false)

/-- R141. UnsupportedInstruction is raised when, and only when, the fetched word's `family` is not 0x0, 0x2 or 0x8, or is 0x0 and the word
neither 0x0000 nor 0x00EE, or is 0x8 and `op` is 0x6 to 0xF; the step then records the word and the address it was fetched from,
and no register, `sp` or stack entry changes. -/
def Obligations.UnsupportedInstructionIsRaised : Prop :=
  ∀ s : State, s.runState = .running → s.pc.toNat ≤ 0x0FFE →
    (HasNoHandler s.fetchWord →
      step s = .next { s with pc := s.pc + 2, runState := .faulted,
                              fault := ⟨.unsupportedInstruction, s.fetchWord, s.pc⟩ }) ∧
    (¬ HasNoHandler s.fetchWord →
      ∃ t, step s = .next t ∧ (s.fault.cause ≠ .unsupportedInstruction → t.fault.cause ≠ .unsupportedInstruction)) ∧
    (s.fetchWord = 0x1234 →
      ∃ t, step s = .next t ∧ t.fault = ⟨.unsupportedInstruction, 0x1234, s.pc⟩)

/-- A running core that fetches a word no row defines raises UnsupportedInstruction; by the spec's own derivation in R59 there are 5634
defined words (1 HALT, 1 RETURN, 4096 CALL, 1536 ALU) and 59902 unsupported ones (4094 in family 0x0, 2560 in family 0x8, and
thirteen whole families). -/
def Obligations.UnsupportedWordsFailAndAreCounted : Prop :=
  (∀ s : State, s.runState = .running → s.pc.toNat ≤ 0x0FFE → wellFormedWord s.fetchWord = false →
    step s = .next { s with pc := s.pc + 2, runState := .faulted,
                            fault := ⟨.unsupportedInstruction, s.fetchWord, s.pc⟩ }) ∧
  (Finset.univ.filter fun w : Word => decodeWord w = .ok .halt).card = 1 ∧
  (Finset.univ.filter fun w : Word => decodeWord w = .ok .ret).card = 1 ∧
  (Finset.univ.filter fun w : Word => decodes w = true).card = 5634 ∧
  (Finset.univ.filter fun w : Word => decodes w = false).card = 59902 ∧
  ∀ f : BitVec 4,
    (Finset.univ.filter fun w : Word => decodes w = false ∧ (splitWord w).family = f).card =
      if f = 0x0 then 4094 else if f = 0x2 then 0 else if f = 0x8 then 2560 else 4096

/-- Words written out from the encodings of R55 decode to the instructions they stand for, and neighbours of them to none. -/
def Obligations.SampleWordsDecode : Prop :=
  decodeWord 0x0000 = .ok .halt ∧ decodeWord 0x00EE = .ok .ret ∧ decodeWord 0x2100 = .ok (.call 0x100) ∧
  decodeWord 0x2FFF = .ok (.call 0xFFF) ∧ decodeWord 0x8AF0 = .ok (.move 10 15) ∧ decodeWord 0x8AB1 = .ok (.or 10 11) ∧
  decodeWord 0x8FF2 = .ok (.and 15 15) ∧ decodeWord 0x8013 = .ok (.xor 0 1) ∧ decodeWord 0x8014 = .ok (.add 0 1) ∧
  decodeWord 0x8015 = .ok (.sub 0 1) ∧
  ∀ w ∈ [0x00E0, 0x0001, 0x00EF, 0x00ED, 0x01EE, 0x0100, 0x1234, 0x3000, 0x8016, 0x801E, 0x9000, 0xFFFF],
    decodes w = false

/-! ### The step (spec/40_instruction_cycle.md, spec/20_memory.md) -/

/-- R75. When the two bytes at `pc` decode to an instruction, a step of a running core is that instruction's behaviour from the state
with `pc` advanced by 2; when they decode to none, it raises UnsupportedInstruction with the word and the fetch address. -/
def Obligations.StepRunsTheDecodedInstruction : Prop :=
  ∀ s : State, s.runState = .running → s.pc.toNat ≤ 0x0FFE →
    (∀ i, decodeBytes [s.memByte s.pc.toNat, s.memByte (s.pc.toNat + 1)] = .ok (i, []) →
      step s = exec i { s with pc := s.pc + 2 }) ∧
    (∀ e, decodeBytes [s.memByte s.pc.toNat, s.memByte (s.pc.toNat + 1)] = .error e →
      step s = .next { s with pc := s.pc + 2, runState := .faulted,
                              fault := ⟨.unsupportedInstruction, s.fetchWord, s.pc⟩ })

/-- R32. The fetched word is the byte at `pc` as bits 15 to 8 and the byte at `pc + 1` as bits 7 to 0, at even and odd addresses alike;
bytes 0x21, 0x00 at 0x000 fetch as CALL 0x100. -/
def Obligations.FetchIsBigEndian : Prop :=
  (∀ s : State, s.fetchWord.toNat = 256 * (s.memByte s.pc.toNat).toNat + (s.memByte (s.pc.toNat + 1)).toNat) ∧
  (∀ s : State, s.pc = 0x0000 → s.memByte 0x000 = 0x21 → s.memByte 0x001 = 0x00 →
    s.fetchWord = 0x2100 ∧ decodeWord s.fetchWord = .ok (.call 0x100))

/-- R71, R144. On every step of a running core, OutOfBounds is raised exactly when `pc > 0x0FFE`, whatever memory holds, with `pc` and
everything but the run state and the fault record unchanged. -/
def Obligations.OutOfBoundsExactlyAboveFFE : Prop :=
  (∀ s : State, s.runState = .running → 0x0FFE < s.pc.toNat →
    step s = .next { s with runState := .faulted, fault := ⟨.outOfBounds, 0x0000, s.pc⟩ }) ∧
  (∀ s t : State, s.runState = .running → s.fault.cause = .noFailure → step s = .next t →
    (t.fault.cause = .outOfBounds ↔ 0x0FFE < s.pc.toNat))

/-- R77 (decision D13 of the spec). A step of a core that is IDLE, HALTED or FAULTED changes nothing. -/
def Obligations.StepDoesNothingUnlessRunning : Prop :=
  ∀ s : State, s.runState = .idle ∨ s.runState = .halted ∨ s.runState = .faulted → step s = .next s

/-- Every step from every state answers a next state: no instruction, no word and no byte the loader did not write stops the model
(R59, R140, R151). The unloaded byte is the model's free value, notes/assumptions/1.md. -/
def Obligations.EveryStepAnswersANextState : Prop :=
  (∀ s : State, ∃ t, step s = .next t) ∧ ∀ (i : Instr) (s : State), ∃ t, exec i s = .next t

/-- R14. After an instruction fetched at `a`: `pc = a + 2` after HALT and the ALU instructions, the target after a CALL that does not
fail, the popped entry after a RETURN that does not fail; while it executes, `pc = a + 2`, which is what CALL pushes. -/
def Obligations.PcAfterEachInstruction : Prop :=
  ∀ (s t : State) (i : Instr), s.runState = .running → s.pc.toNat ≤ 0x0FFE → decodeWord s.fetchWord = .ok i →
    step s = .next t →
    (i = .halt ∨ aluDest i ≠ none → t.pc = s.pc + 2) ∧
    (∀ n, i = .call n → s.sp.val < 16 → t.pc = n.setWidth 16 ∧ ∀ k : Fin 16, k.val = s.sp.val → t.stack[k] = s.pc + 2) ∧
    (i = .ret → ∀ k : Fin 16, s.sp.val = k.val + 1 → t.pc = s.stack[k])

/-- R37. The core never writes memory and no instruction stores: no number of steps changes a byte of it. -/
def Obligations.CoreNeverWritesMemory : Prop :=
  ∀ (n : Nat) (s t : State), runSteps n s = .next t → t.mem = s.mem ∧ ∀ a, t.memByte a = s.memByte a

/-- The fetch is the only access: a step depends on no byte of memory but those at `pc` and `pc + 1` (R34, R72). -/
def Obligations.StepReadsOnlyTheFetchedBytes : Prop :=
  ∀ (s t : State) (m : Memory), step s = .next t →
    (∀ a, a = s.pc.toNat ∨ a = s.pc.toNat + 1 → ({ s with mem := m } : State).memByte a = s.memByte a) →
    step { s with mem := m } = .next { t with mem := m }

/-- How the steps of a run are grouped changes no outcome, and a run that has ended stays as it ended (R77, R78). -/
def Obligations.GroupingOfStepsChangesNothing : Prop :=
  (∀ (m n : Nat) (s t : State), runSteps m s = .next t → runSteps (m + n) s = runSteps n t) ∧
  (∀ (n : Nat) (s : State), s.runState ≠ .running → runSteps n s = .next s)

/-- Only the six ALU instructions write a general register, and only their destination or, for ADD and SUB, `r[0xF]` (R11). -/
def Obligations.RegistersWrittenOnlyByAlu : Prop :=
  ∀ (s t : State) (z : Reg), step s = .next t → t.reg z ≠ s.reg z →
    s.runState = .running ∧ ∃ i x flagged, decodeWord s.fetchWord = .ok i ∧ aluDest i = some (x, flagged) ∧
      (z = x ∨ flagged = true ∧ z = 15)

/-- Only CALL writes a call-stack entry, the one at `sp`, with `a + 2`; only CALL and RETURN move `sp`, by one (R16, R17). -/
def Obligations.CallStackMovesOnlyByCallAndReturn : Prop :=
  ∀ (s t : State), step s = .next t →
    (t.stack ≠ s.stack → ∃ n, ∃ k : Fin 16, decodeWord s.fetchWord = .ok (.call n) ∧ k.val = s.sp.val ∧
      t.stack = s.stack.set k.val (s.pc + 2)) ∧
    (t.sp ≠ s.sp →
      (∃ n, decodeWord s.fetchWord = .ok (.call n) ∧ t.sp.val = s.sp.val + 1) ∨
      (decodeWord s.fetchWord = .ok .ret ∧ t.sp.val + 1 = s.sp.val))

/-- R18. Entries at and above `sp` are not observable: two states that differ only there run alike for any number of steps, and the
host sees the same registers and status; RETURN does not clear what it pops (decision D16 of the spec). -/
def Obligations.DeadEntriesAreUnobservable : Prop :=
  (∀ (n : Nat) (s s' : State), SameLive s s' →
    ∃ t t', runSteps n s = .next t ∧ runSteps n s' = .next t' ∧ SameLive t t' ∧
      hostStatus t = hostStatus t' ∧ ∀ x, hostReadReg x t = hostReadReg x t') ∧
  (∀ s t : State, exec .ret s = .next t → t.stack = s.stack)

/-- R70. The step is the pseudocode block, written over plain numbers: for every state, the model's step read as numbers is the
pseudocode's step of the state read as numbers. -/
def Obligations.StepIsThePseudocode : Prop :=
  ∀ s : State, ∃ t, step s = .next t ∧ t.plain = plainStep (fun a => (s.memByte a).toNat) s.plain

/-! ### Failures and run states (spec/60_exceptions.md, spec/10_state.md) -/

/-- R140, R148. A step of a running core raises exactly the failure whose condition comes first, and none otherwise; the cause codes. -/
def Obligations.ExactlyFourFailures : Prop :=
  (∀ s : State, s.runState = .running → ∃ t, step s = .next t ∧
    (∀ c, stepFailure s = some c → t.runState = .faulted ∧ t.fault.cause = c) ∧
    (stepFailure s = none → t.runState ≠ .faulted ∧ t.fault = s.fault)) ∧
  (∀ c : Cause, causeCode c = match c with
    | .noFailure => 0 | .unsupportedInstruction => 1 | .stackOverflow => 2 | .stackUnderflow => 3 | .outOfBounds => 4)

/-- R145, R146, R147. The whole effect of a failure: FAULTED, the record (the word, or 0x0000 after OutOfBounds, and the fetch address),
`pc = a + 2`, or `a` after OutOfBounds, and nothing else; the record then stays until reset. -/
def Obligations.FailuresArePrecise : Prop :=
  (∀ (s : State) (c : Cause), s.runState = .running → stepFailure s = some c →
    step s = .next { s with
      pc := if c = .outOfBounds then s.pc else s.pc + 2
      runState := .faulted
      fault := ⟨c, if c = .outOfBounds then 0x0000 else s.fetchWord, s.pc⟩ }) ∧
  (∀ s : State, s.runState = .faulted → step s = .next s ∧
    ∀ m t, hostAct m s = .next t → m ≠ .reset → t.runState = .faulted ∧ t.fault = s.fault)

/-- R20. The transitions of `run_state`, by step and by host move, and its encoding. -/
def Obligations.RunStateTransitions : Prop :=
  (∀ s t : State, step s = .next t →
    (s.runState ≠ .running → t.runState = s.runState) ∧
    (s.runState = .running →
      (stepFailure s ≠ none → t.runState = .faulted) ∧
      (stepFailure s = none → s.fetchWord = 0x0000 → t.runState = .halted) ∧
      (stepFailure s = none → s.fetchWord ≠ 0x0000 → t.runState = .running))) ∧
  (∀ (s t : State) (m : HostMove), hostAct m s = .next t →
    (m = .reset → t.runState = .idle) ∧
    (m = .start → t.runState = if s.runState = .idle then .running else s.runState) ∧
    (m ≠ .reset → m ≠ .start → t.runState = s.runState)) ∧
  (runStateCode .idle = 0 ∧ runStateCode .running = 1 ∧ runStateCode .halted = 2 ∧ runStateCode .faulted = 3)

/-- The fault record is written only when a step raises a failure and by reset; outside FAULTED its cause is 0 (R21). -/
def Obligations.FaultRecordWrittenOnlyByFailure : Prop :=
  (∀ s t : State, step s = .next t → t.fault ≠ s.fault → s.runState = .running ∧ stepFailure s ≠ none) ∧
  (∀ (s t : State) (m : HostMove), hostAct m s = .next t → m ≠ .reset → t.fault = s.fault) ∧
  (∀ s : State, s.Inv → s.runState ≠ .faulted → causeCode s.fault.cause = 0)

/-! ### The invariant -/

/-- The state after reset meets the invariant. -/
def Obligations.ResetMeetsInvariant : Prop := State.reset.Inv

/-- From every state that meets the invariant a step gives one that meets it: memory canonical, `pc` at most 0x1000, every return address
in use 0x0002 to 0x1000, the fault record clear outside FAULTED and the truth about the failure in it. -/
def Obligations.StepKeepsInvariant : Prop :=
  ∀ s t : State, s.Inv → step s = .next t → t.Inv

/-- Every host move that the model answers with a next state keeps the invariant (its start is ResetMeetsInvariant, its step
StepKeepsInvariant). -/
def Obligations.HostMovesKeepInvariant : Prop :=
  ∀ (s t : State) (m : HostMove), s.Inv → hostAct m s = .next t → t.Inv

/-! ### The host (spec/50_interfaces.md, spec/70_reset_and_hazards.md) -/

/-- R24, R170 (decisions D7, D10, D11, D13 of the spec). Reset, from any state, `run_state` RUNNING included, gives every piece of core state its reset value and leaves memory
alone; the core then executes nothing. (The spec leaves the stack entries unspecified; nothing is said of them here.) -/
def Obligations.ResetSetsEveryValue : Prop :=
  ∀ s : State, ∃ t, hostAct .reset s = .next t ∧ (∀ x, t.reg x = 0x00) ∧ t.pc = 0x0000 ∧ t.sp = 0 ∧ t.runState = .idle ∧
    causeCode t.fault.cause = 0 ∧ t.fault.word = 0x0000 ∧ t.fault.addr = 0x0000 ∧ t.mem = s.mem ∧
    (∀ a, t.memByte a = s.memByte a) ∧ step t = .next t

/-- R125 (decision D13 of the spec). Start moves IDLE to RUNNING and changes nothing else; in any other state it is ignored. -/
def Obligations.StartOnlyLeavesIdle : Prop :=
  ∀ s : State,
    (s.runState = .idle → hostAct .start s = .next { s with runState := .running }) ∧
    (s.runState ≠ .idle → hostAct .start s = .next s)

/-- R126 (decision D14 of the spec). While IDLE the host writes any register with any value and nothing else; no move but reset
writes `pc`, `sp`, the call stack or the fault record, and none but reset and start the run state. (What the model answers to a preset
outside IDLE is its own choice: HostMovesNotGivenStopByName.) -/
def Obligations.PresetWritesOneRegisterWhileIdle : Prop :=
  (∀ (s : State) (x : Reg) (v : Byte), s.runState = .idle →
    ∃ t, hostAct (.presetReg x v) s = .next t ∧ (∀ z, t.reg z = if z = x then v else s.reg z) ∧ OnlyRegistersDiffer s t) ∧
  (∀ (s t : State) (m : HostMove), m ≠ .reset → hostAct m s = .next t →
    t.pc = s.pc ∧ t.sp = s.sp ∧ t.stack = s.stack ∧ t.fault = s.fault ∧ (m ≠ .start → t.runState = s.runState))

/-- The model's choice, notes/assumptions/4.md: how a move that the spec does not give the host ends. Outside IDLE a register preset and a
memory load are refused by name, with the run state; while IDLE a load that names a byte outside 0x000 to 0xFFF stops with the
first such address, and nothing is loaded. -/
def Obligations.HostMovesNotGivenStopByName : Prop :=
  (∀ (s : State) (x : Reg) (v : Byte), s.runState ≠ .idle →
    hostAct (.presetReg x v) s = .refused (.hostMoveNotAllowed s.runState)) ∧
  (∀ (s : State) (a : Nat) (v : Byte), s.runState ≠ .idle →
    hostAct (.loadByte a v) s = .refused (.hostMoveNotAllowed s.runState)) ∧
  (∀ (s : State) (base : Nat) (words : List Word), s.runState ≠ .idle →
    hostAct (.loadProgram base words) s = .refused (.hostMoveNotAllowed s.runState)) ∧
  (∀ (s : State) (a : Nat) (v : Byte), s.runState = .idle → 0x1000 ≤ a →
    hostAct (.loadByte a v) s = .fault (.noSuchAddress a)) ∧
  (∀ (s : State) (base : Nat) (words : List Word), s.runState = .idle → 0x1000 < base + 2 * words.length →
    hostAct (.loadProgram base words) s = .fault (.noSuchAddress (max base 0x1000)))

/-- A program loaded while IDLE stands in memory as 16-bit big-endian words from its base on; every other byte, and everything but
memory, is as before (R31, R131). -/
def Obligations.LoadedProgramIsFetched : Prop :=
  ∀ (s : State) (base : Nat) (words : List Word), s.runState = .idle → base + 2 * words.length ≤ 0x1000 →
    ∃ t, hostAct (.loadProgram base words) s = .next t ∧ t = { s with mem := t.mem } ∧
      (∀ (j : Nat) (hj : j < words.length),
        ({ t with pc := BitVec.ofNat 16 (base + 2 * j) } : State).fetchWord = words[j]) ∧
      ∀ a, a < base ∨ base + 2 * words.length ≤ a → t.memByte a = s.memByte a

/-- R129 (decision D14 of the spec). While RUNNING the host has no move but reset: start is ignored, and no other move gives a next
state; it reads no register and inspects nothing, but watches the status. (How the other moves end is the model's choice:
HostMovesNotGivenStopByName.) -/
def Obligations.HostOnlyResetsWhileRunning : Prop :=
  ∀ s : State, s.runState = .running →
    (∀ m t, hostAct m s = .next t → m = .reset ∨ (m = .start ∧ t = s)) ∧
    (∀ x, hostReadReg x s = none) ∧ hostInspect s = none ∧ (hostStatus s).runState = 1

/-- R127, R128 (decision D14 of the spec). The status outputs in every state; while not RUNNING, the registers, `pc`, `sp` and the entries in use as they
are. (Entries at and above `sp` read as unspecified values; nothing is said of them here.) -/
def Obligations.HostSeesTheState : Prop :=
  (∀ s : State,
    (hostStatus s).runState = runStateCode s.runState ∧ (hostStatus s).cause = causeCode s.fault.cause ∧
    (hostStatus s).word = s.fault.word ∧ (hostStatus s).addr = s.fault.addr ∧
    ((hostStatus s).halted = true ↔ s.runState = .halted) ∧ ((hostStatus s).faulted = true ↔ s.runState = .faulted)) ∧
  (∀ s : State, s.runState ≠ .running →
    (∀ x, hostReadReg x s = some (s.reg x)) ∧
    ∃ v, hostInspect s = some v ∧ v.pc = s.pc ∧ v.sp.toNat = s.sp.val ∧
      ∀ i : Fin 16, i.val < s.sp.val → v.stack[i] = s.stack[i])

/-- The launch state: after reset, any moves that preset registers or load memory, and start, everything is fixed but the registers,
which hold what was last written to each or 0x00, and memory (R176). (The stack entries are the model's choice,
notes/assumptions/2.md.) -/
def Obligations.LaunchStateIsFixed : Prop :=
  ∀ (s u : State) (ms : List HostMove), (∀ m ∈ ms, m ≠ .reset ∧ m ≠ .start) → hostActs ms (hostReset s) = .next u →
    hostAct .start u = .next (launch u.r u.mem) ∧ (∀ z, u.reg z = (lastPreset z ms).getD 0x00)

/-! ### Every run ends (spec/70_reset_and_hazards.md) -/

/-- Every run ends, HALTED or FAULTED, whatever memory and registers hold: from any RUNNING state after finitely many steps, and from one
with an empty call stack after at most `B(0) + 1` (R184, `B` as `activationBound`). -/
def Obligations.EveryRunEnds : Prop :=
  (∀ s : State, s.runState = .running →
    ∃ n t, runSteps n s = .next t ∧ (t.runState = .halted ∨ t.runState = .faulted)) ∧
  (∀ s : State, s.runState = .running → s.sp.val = 0 →
    ∃ n t, n ≤ activationBound 16 + 1 ∧ runSteps n s = .next t ∧ (t.runState = .halted ∨ t.runState = .faulted))
end

