-- ==== Sys2Proof/Laws/Decode.lean ====
section
/-! SUPPORT. The byte order of a word and the fields of a word, as numbers. -/

namespace Sys2Proof

/-- A word is its high byte before its low byte. -/
theorem wordOfBytes_high_low (w : Word) : wordOfBytes (highByte w) (lowByte w) = w := by
  apply BitVec.eq_of_toNat_eq
  have := w.isLt
  simp [wordOfBytes, highByte, lowByte, Nat.shiftRight_eq_div_pow]
  omega

/-- The number a fetched word stands for. -/
theorem wordOfBytes_toNat (hi lo : Byte) : (wordOfBytes hi lo).toNat = 256 * hi.toNat + lo.toNat := by
  have := hi.isLt; have := lo.isLt
  simp [wordOfBytes]; omega

/-- The decoder on bytes is the decoder on the word they make. -/
theorem decodeBytes_pair (hi lo : Byte) (rest : List Byte) :
    decodeBytes (hi :: lo :: rest) = (decodeWord (wordOfBytes hi lo)).map fun i => (i, rest) := by
  simp only [decodeBytes]
  cases decodeWord (wordOfBytes hi lo) <;> rfl

/-- A word is made of its four nibbles, and of `family` before `addr12`. -/
theorem splitWord_toNat (w : Word) :
    w.toNat = 4096 * (splitWord w).family.toNat + 256 * (splitWord w).x.toNat + 16 * (splitWord w).y.toNat +
      (splitWord w).op.toNat ∧
    w.toNat = 4096 * (splitWord w).family.toNat + (splitWord w).addr12.toNat := by
  have := w.isLt
  simp [splitWord, Nat.shiftRight_eq_div_pow]
  omega

end Sys2Proof
end

