-- ==== Sys2Proof/Laws/Memory.lean ====
section
/-! SUPPORT. The laws of memory: a read after a write, and every operation keeps the canonical form. -/

namespace Sys2Proof.Machine

/-- A byte reads back as written, and a write leaves every other address alone. -/
theorem read?_write (m : Memory) (a b : Nat) (v : Byte) :
    Memory.read? (Memory.write m a v) b = if b = a then some v else Memory.read? m b := by
  induction m with
  | nil => simp [Memory.write, Memory.read?]
  | cons c m ih =>
    obtain ⟨k, w⟩ := c
    simp only [Memory.write]
    split
    · simp [Memory.read?]
    · split
      · next h => subst h; simp only [Memory.read?]; split <;> simp_all
      · next h1 h2 =>
        simp only [Memory.read?, ih]
        by_cases hb : b = k
        · simp [hb]
          intro h; omega
        · simp [hb]

/-- Reading a word's two bytes back: the high one at the lower address (R32). -/
theorem read?_writeWord (m : Memory) (a b : Nat) (w : Word) :
    Memory.read? (Memory.writeWord m a w) b =
      if b = a + 1 then some (lowByte w) else if b = a then some (highByte w) else Memory.read? m b := by
  simp [Memory.writeWord, read?_write]

/-- A lower bound may be lowered. -/
theorem wfFrom_mono {m : Memory} {i j : Nat} (hij : i ≤ j) (h : Memory.wfFrom j m = true) : Memory.wfFrom i m = true := by
  cases m with
  | nil => rfl
  | cons c m => simp [Memory.wfFrom] at h ⊢; exact ⟨⟨by omega, h.1.2⟩, h.2⟩

/-- Writing an existing address keeps the form, from any bound not above it. -/
theorem wfFrom_write {m : Memory} {low a : Nat} (v : Byte) (hl : low ≤ a) (ha : a < 0x1000)
    (h : Memory.wfFrom low m = true) : Memory.wfFrom low (Memory.write m a v) = true := by
  induction m generalizing low with
  | nil => simp [Memory.write, Memory.wfFrom]; omega
  | cons c m ih =>
    obtain ⟨k, w⟩ := c
    simp [Memory.wfFrom] at h
    simp only [Memory.write]
    split
    · simp [Memory.wfFrom]; exact ⟨⟨hl, ha⟩, ⟨by omega, by omega⟩, h.2⟩
    · split
      · next hk => subst hk; simp [Memory.wfFrom]; exact ⟨h.1, h.2⟩
      · simp [Memory.wfFrom]; exact ⟨h.1, ih (by omega) h.2⟩

/-- A byte written to an existing address keeps the canonical form. -/
theorem wf_write {m : Memory} {a : Nat} (v : Byte) (ha : a < 0x1000) (h : m.wf = true) :
    Memory.wf (Memory.write m a v) = true :=
  wfFrom_write v (Nat.zero_le a) ha h

/-- A word written to existing addresses keeps the canonical form. -/
theorem wf_writeWord {m : Memory} {a : Nat} (w : Word) (ha : a < 0x0FFF) (h : m.wf = true) :
    Memory.wf (Memory.writeWord m a w) = true :=
  wf_write _ (by omega) (wf_write _ (by omega) h)

/-- A program written inside memory keeps the canonical form. -/
theorem wf_writeWords {m : Memory} {base : Nat} (ws : List Word) (hb : base + 2 * ws.length ≤ 0x1000) (h : m.wf = true) :
    Memory.wf (Memory.writeWords m base ws) = true := by
  induction ws generalizing m base with
  | nil => exact h
  | cons w ws ih =>
    simp only [List.length_cons] at hb
    exact ih (by omega) (wf_writeWord w (by omega) h)

/-- Reset's memory has the canonical form. -/
theorem reset_wf : State.reset.mem.wf = true := rfl

/-- Placing a word for the next step keeps the canonical form. -/
theorem placeWord_wf {s : State} (w : Word) (h : s.mem.wf = true) : (s.placeWord w).mem.wf = true := by
  simp only [State.placeWord]
  split
  · next hb => simp [State.fetchInBounds] at hb; exact wf_writeWord w (by omega) h
  · exact wf_writeWord w (by simp [State.setPc, Config.resetPc]) h

end Sys2Proof.Machine
end

