-- ==== Sys2Proof/Laws/State.lean ====
section
/-! SUPPORT. What each update of the state leaves in each field, so that no later proof unfolds a record update. -/

namespace Sys2Proof.Machine

variable (s : State) (x z : Reg) (v f : Byte) (w a : Word) (c : Cause) (k : RunState)

@[simp] theorem setReg_pc : (s.setReg x v).pc = s.pc := rfl
@[simp] theorem setReg_sp : (s.setReg x v).sp = s.sp := rfl
@[simp] theorem setReg_stack : (s.setReg x v).stack = s.stack := rfl
@[simp] theorem setReg_runState : (s.setReg x v).runState = s.runState := rfl
@[simp] theorem setReg_fault : (s.setReg x v).fault = s.fault := rfl
@[simp] theorem setReg_mem : (s.setReg x v).mem = s.mem := rfl
@[simp] theorem setReg_memByte (b : Nat) : (s.setReg x v).memByte b = s.memByte b := rfl

/-- A register reads what was last written to it, and a write leaves every other register alone (R10). -/
@[simp] theorem reg_setReg : (s.setReg x v).reg z = if z = x then v else s.reg z := by
  by_cases h : z = x
  · subst h; simp [State.reg, State.setReg]
  · have h' : ¬ x.val = z.val := fun e => h (Fin.ext e.symm)
    simp [State.reg, State.setReg, h, h']

@[simp] theorem setPc_r : (s.setPc w).r = s.r := rfl
@[simp] theorem setPc_pc : (s.setPc w).pc = w := rfl
@[simp] theorem setPc_sp : (s.setPc w).sp = s.sp := rfl
@[simp] theorem setPc_stack : (s.setPc w).stack = s.stack := rfl
@[simp] theorem setPc_runState : (s.setPc w).runState = s.runState := rfl
@[simp] theorem setPc_fault : (s.setPc w).fault = s.fault := rfl
@[simp] theorem setPc_mem : (s.setPc w).mem = s.mem := rfl
@[simp] theorem setPc_reg : (s.setPc w).reg z = s.reg z := rfl
@[simp] theorem setPc_memByte (b : Nat) : (s.setPc w).memByte b = s.memByte b := rfl

@[simp] theorem setRunState_r : (s.setRunState k).r = s.r := rfl
@[simp] theorem setRunState_pc : (s.setRunState k).pc = s.pc := rfl
@[simp] theorem setRunState_sp : (s.setRunState k).sp = s.sp := rfl
@[simp] theorem setRunState_stack : (s.setRunState k).stack = s.stack := rfl
@[simp] theorem setRunState_runState : (s.setRunState k).runState = k := rfl
@[simp] theorem setRunState_fault : (s.setRunState k).fault = s.fault := rfl
@[simp] theorem setRunState_mem : (s.setRunState k).mem = s.mem := rfl
@[simp] theorem setRunState_reg : (s.setRunState k).reg z = s.reg z := rfl
@[simp] theorem setRunState_memByte (b : Nat) : (s.setRunState k).memByte b = s.memByte b := rfl

@[simp] theorem advance_r : s.advance.r = s.r := rfl
@[simp] theorem advance_pc : s.advance.pc = s.pc + 2 := rfl
@[simp] theorem advance_sp : s.advance.sp = s.sp := rfl
@[simp] theorem advance_stack : s.advance.stack = s.stack := rfl
@[simp] theorem advance_runState : s.advance.runState = s.runState := rfl
@[simp] theorem advance_fault : s.advance.fault = s.fault := rfl
@[simp] theorem advance_mem : s.advance.mem = s.mem := rfl
@[simp] theorem advance_reg : s.advance.reg z = s.reg z := rfl
@[simp] theorem advance_memByte (b : Nat) : s.advance.memByte b = s.memByte b := rfl

@[simp] theorem raise_r : (s.raise c w a).r = s.r := rfl
@[simp] theorem raise_pc : (s.raise c w a).pc = s.pc := rfl
@[simp] theorem raise_sp : (s.raise c w a).sp = s.sp := rfl
@[simp] theorem raise_stack : (s.raise c w a).stack = s.stack := rfl
@[simp] theorem raise_runState : (s.raise c w a).runState = .faulted := rfl
@[simp] theorem raise_fault : (s.raise c w a).fault = ⟨c, w, a⟩ := rfl
@[simp] theorem raise_mem : (s.raise c w a).mem = s.mem := rfl
@[simp] theorem raise_reg : (s.raise c w a).reg z = s.reg z := rfl
@[simp] theorem raise_memByte (b : Nat) : (s.raise c w a).memByte b = s.memByte b := rfl

@[simp] theorem setRegThenFlag_pc : (s.setRegThenFlag x v f).pc = s.pc := rfl
@[simp] theorem setRegThenFlag_sp : (s.setRegThenFlag x v f).sp = s.sp := rfl
@[simp] theorem setRegThenFlag_stack : (s.setRegThenFlag x v f).stack = s.stack := rfl
@[simp] theorem setRegThenFlag_runState : (s.setRegThenFlag x v f).runState = s.runState := rfl
@[simp] theorem setRegThenFlag_fault : (s.setRegThenFlag x v f).fault = s.fault := rfl
@[simp] theorem setRegThenFlag_mem : (s.setRegThenFlag x v f).mem = s.mem := rfl
@[simp] theorem setRegThenFlag_memByte (b : Nat) : (s.setRegThenFlag x v f).memByte b = s.memByte b := rfl

/-- The flag register holds the flag, also when it is the destination (R108). -/
@[simp] theorem reg_setRegThenFlag :
    (s.setRegThenFlag x v f).reg z = if z = Config.flagReg then f else if z = x then v else s.reg z := by
  simp [State.setRegThenFlag]

@[simp] theorem hostReset_r : (hostReset s).r = State.reset.r := rfl
@[simp] theorem hostReset_pc : (hostReset s).pc = Config.resetPc := rfl
@[simp] theorem hostReset_sp : (hostReset s).sp = 0 := rfl
@[simp] theorem hostReset_runState : (hostReset s).runState = .idle := rfl
@[simp] theorem hostReset_fault : (hostReset s).fault = FaultRecord.cleared := rfl
@[simp] theorem hostReset_mem : (hostReset s).mem = s.mem := rfl
@[simp] theorem hostReset_memByte (b : Nat) : (hostReset s).memByte b = s.memByte b := rfl

@[simp] theorem reset_reg : State.reset.reg z = 0 := by simp [State.reset, State.reg]

end Sys2Proof.Machine
end

