-- ==== Sys2Proof/Laws/Ops.lean ====
section
/-! SUPPORT. For each shared operation, everything it can do, once. -/

namespace Sys2Proof.Machine

/-- The stack is full exactly when a push fails. -/
theorem push?_eq_none {s : State} {v : Word} : s.push? v = none ↔ s.sp.val = 16 := by
  simp only [State.push?]; split <;> simp_all

/-- What a push does when it succeeds. -/
theorem push?_eq_some {s t : State} {v : Word} (h : s.push? v = some t) :
    ∃ hk : s.sp.val < 16,
      t = { s with stack := s.stack.set s.sp.val v hk, sp := ⟨s.sp.val + 1, by omega⟩ } := by
  simp only [State.push?] at h
  split at h
  · cases h
  · exact ⟨by omega, (Option.some.inj h).symm⟩

/-- A push onto a stack that is not full succeeds. -/
theorem push?_of_lt {s : State} (v : Word) (hk : s.sp.val < 16) :
    s.push? v = some { s with stack := s.stack.set s.sp.val v hk, sp := ⟨s.sp.val + 1, by omega⟩ } := by
  simp only [State.push?]; split
  · omega
  · rfl

/-- The stack is empty exactly when a pop fails. -/
theorem pop?_eq_none {s : State} : s.pop? = none ↔ s.sp.val = 0 := by
  simp only [State.pop?]; split <;> simp_all

/-- What a pop does when it succeeds: the entries stay, `sp` falls by one. -/
theorem pop?_eq_some {s t : State} {v : Word} (h : s.pop? = some (v, t)) :
    ∃ hk : 0 < s.sp.val, v = s.stack[s.sp.val - 1] ∧ t = { s with sp := ⟨s.sp.val - 1, by omega⟩ } := by
  simp only [State.pop?] at h
  split at h
  · cases h
  · have h := Option.some.inj h
    exact ⟨by omega, (congrArg Prod.fst h).symm, (congrArg Prod.snd h).symm⟩

/-- A pop from a stack that is not empty succeeds. -/
theorem pop?_of_pos {s : State} (hk : 0 < s.sp.val) :
    s.pop? = some (s.stack[s.sp.val - 1], { s with sp := ⟨s.sp.val - 1, by omega⟩ }) := by
  simp only [State.pop?]; split
  · omega
  · rfl

/-- During an instruction's behaviour the fetch address is where the step began. -/
@[simp] theorem fetchAddr_advance (s : State) : s.advance.fetchAddr = s.pc := by
  simp [State.fetchAddr]

/-- The shared form of MOVE, OR, AND, XOR. -/
theorem execPlain_eq (f : Byte → Byte → Byte) (x y : Reg) (s : State) :
    execPlain f x y s = .next (s.setReg x (f (s.reg x) (s.reg y))) := rfl

/-- The shared form of ADD and SUB. -/
theorem execFlagged_eq (f flag : Byte → Byte → Byte) (x y : Reg) (s : State) :
    execFlagged f flag x y s = .next (s.setRegThenFlag x (f (s.reg x) (s.reg y)) (flag (s.reg x) (s.reg y))) := rfl

/-- A flag byte is 0 or 1. -/
theorem flagByte_toNat (b : Bool) : (flagByte b).toNat = if b then 1 else 0 := by cases b <;> rfl

/-- ADD's result as a number. -/
theorem addResult_toNat (p q : Byte) : (addResult p q).toNat = (p.toNat + q.toNat) % 256 := by
  simp [addResult]

/-- SUB's result is the wrapping difference. -/
theorem subResult_eq (p q : Byte) : subResult p q = p - q := by
  apply BitVec.eq_of_toInt_eq
  rw [subResult, BitVec.toInt_ofInt, BitVec.toInt_sub]
  simp only [BitVec.toInt_eq_toNat_bmod]
  simp

/-- SUB's result as a number. -/
theorem subResult_toNat (p q : Byte) : (subResult p q).toNat = (p.toNat + 256 - q.toNat) % 256 := by
  have := p.isLt; have := q.isLt
  rw [subResult_eq, BitVec.toNat_sub]; omega

/-- `placeWord` starts the core, and its next fetch is in bounds. -/
theorem placeWord_ready (s : State) (w : Word) :
    (s.placeWord w).isRunning = true ∧ (s.placeWord w).fetchInBounds = true := by
  simp only [State.placeWord, State.isRunning, beq_self_eq_true, true_and]
  split
  · assumption
  · simp [State.fetchInBounds, State.setPc, Config.resetPc]

end Sys2Proof.Machine
end

