-- ==== Sys2Proof/Laws/PerInstr.lean ====
section
/-! SUPPORT. A fact about each instruction as syntax, per constructor: its word is matched by the opcode table's row of its own
mnemonic, and by no other row (spec/30_encoding.md R55, R64). -/

namespace Sys2Proof.Laws.RowMatches

/-- Of the rows of the opcode table, exactly the one of the instruction's mnemonic matches its word. -/
def Statement (i : Instr) : Prop :=
  ∀ row ∈ opcodeTable, row.matchesWord (encode i) = (row.mnemonic == i.mnemonic)

/-- A CALL word is the nibble 0x2 before its address, bit by bit. -/
theorem encode_call_bit (n : Addr12) (i : Nat) :
    (encode (.call n)).getLsbD i = if i < 12 then n.getLsbD i else (2 : Nat).testBit (i - 12) := by
  have hn := n.isLt
  have h : (encode (.call n)).toNat = 2 ^ 12 * 2 + n.toNat := by
    simp only [encode, BitVec.toNat_ofNat]
    exact Nat.mod_eq_of_lt (by omega)
  rw [← BitVec.testBit_toNat, h, Nat.testBit_two_pow_mul_add 2 hn, ← BitVec.testBit_toNat]

/-- Bit 13 of a CALL word is set, so no row that fixes that bit at 0 matches it. -/
theorem call_not_matched (n : Addr12) (row : OpcodeRow) (hm : row.mask.getLsbD 13 = true)
    (hp : row.pattern.getLsbD 13 = false) : row.matchesWord (encode (.call n)) = false := by
  rw [OpcodeRow.matchesWord, beq_eq_false_iff_ne]
  intro h
  have h13 := congrArg (·.getLsbD 13) h
  simp only [BitVec.getLsbD_and, encode_call_bit, hm, hp] at h13
  rw [if_neg (by decide)] at h13
  exact absurd h13 (by decide)

theorem halt : Statement .halt := by unfold Statement; decide
theorem ret : Statement .ret := by unfold Statement; decide
theorem call (n : Addr12) : Statement (.call n) := by
  have hcall : (⟨"CALL", 0x2000, 0xF000⟩ : OpcodeRow).matchesWord (encode (.call n)) = true := by
    rw [OpcodeRow.matchesWord, beq_iff_eq]
    apply BitVec.eq_of_getLsbD_eq
    intro i hi
    rw [BitVec.getLsbD_and, encode_call_bit]
    split
    · interval_cases i <;> simp
    · interval_cases i <;> first | omega | decide
  intro row hrow
  simp only [opcodeTable, List.mem_cons, List.not_mem_nil, or_false] at hrow
  rcases hrow with rfl | rfl | rfl | rfl | rfl | rfl | rfl | rfl | rfl
  case inr.inr.inl => rw [hcall]; rfl
  all_goals rw [call_not_matched n _ (by decide) (by decide)]; simp only [Instr.mnemonic]; decide
theorem move (x y : Reg) : Statement (.move x y) := by unfold Statement; revert x y; decide
theorem or (x y : Reg) : Statement (.or x y) := by unfold Statement; revert x y; decide
theorem and (x y : Reg) : Statement (.and x y) := by unfold Statement; revert x y; decide
theorem xor (x y : Reg) : Statement (.xor x y) := by unfold Statement; revert x y; decide
theorem add (x y : Reg) : Statement (.add x y) := by unfold Statement; revert x y; decide
theorem sub (x y : Reg) : Statement (.sub x y) := by unfold Statement; revert x y; decide

end Sys2Proof.Laws.RowMatches
end

