-- ==== Sys2Proof/Laws/Run.lean ====
section
/-! SUPPORT. What one step can do, once, and the equations of a run. -/

namespace Sys2Proof.Machine

/-- A step of a core that is not running. -/
theorem step_of_not_running {s : State} (h : s.runState ≠ .running) : step s = .next s := by
  simp [step, State.isRunning, h]

/-- A step of a running core whose `pc` is out of bounds. -/
theorem step_of_out_of_bounds {s : State} (h : s.runState = .running) (hb : 0x0FFE < s.pc.toNat) :
    step s = .next s.raiseOutOfBounds := by
  have : ¬ s.pc.toNat ≤ 4094 := by omega
  simp [step, State.isRunning, State.fetchInBounds, h, this]

/-- A step of a running core within bounds: the fetched word is decoded and dispatched, or refused. -/
theorem step_of_in_bounds {s : State} (h : s.runState = .running) (hb : s.pc.toNat ≤ 0x0FFE) :
    step s = match decodeWord s.fetchWord with
      | .ok i => exec i s.advance
      | .error _ => .next (s.advance.raiseUnsupported s.fetchWord) := by
  have hr : s.isRunning = true := by simp [State.isRunning, h]
  have hf : s.fetchInBounds = true := by simp [State.fetchInBounds, hb]
  exact (if_pos hr).trans (if_pos hf)

/-- A run of `n + 1` steps of any machine whose first step succeeds. -/
theorem run_succ (M : Host.Core) {s t : M.State} (n : Nat) (h : M.step s = .next t) : M.run (n + 1) s = M.run n t := by
  simp only [Host.Core.run, h]

/-- `n + 1` steps are one step and then `n`. -/
theorem runSteps_succ {s t : State} (n : Nat) (h : step s = .next t) : runSteps (n + 1) s = runSteps n t :=
  run_succ Sys2Proof.core n h

/-- No step, no change. -/
@[simp] theorem runSteps_zero (s : State) : runSteps 0 s = .next s := rfl

/-- A word placed for the next step is the word it fetches. -/
theorem placeWord_fetchWord (s : State) (w : Word) : (s.placeWord w).fetchWord = w := by
  simp [State.placeWord, State.fetchWord, State.memByte, read?_writeWord, wordOfBytes_high_low]

end Sys2Proof.Machine
end

