-- ==== Sys2Proof/Tests/Slice0.lean ====
section
/-! SUPPORT. Tests of the model's own: well-formedness, words written out from spec/30_encoding.md R55, single steps with the results
of spec/95_test_vectors.md, and for each statement with hypotheses a state and operands that meet them. -/

open Sys2Proof Sys2Proof.Machine

/-! ### Helpers -/

/-- The next state of an outcome, if it is one. -/
def Tests.next? (o : Result) : Option State :=
  match o with
  | .next s => some s
  | .fault _ | .refused _ => none

/-- One step of `s` with the word `w` where it fetches. -/
def Tests.stepWord (w : Word) (s : State) : Option State := Tests.next? (step (s.placeWord w))

/-- `r[1]`, `r[2]`, `r[0xF]` as the vectors of spec/95_test_vectors.md give them. -/
def Tests.regs (r1 r2 r15 : Byte) : State := ((State.reset.setReg 1 r1).setReg 2 r2).setReg 15 r15

/-- `r[1]`, `r[2]`, `r[0xF]` after one step. -/
def Tests.aluVector (w : Word) (r1 r2 r15 : Byte) : Option (Byte × Byte × Byte) :=
  (Tests.stepWord w (Tests.regs r1 r2 r15)).map fun s => (s.reg 1, s.reg 2, s.reg 15)

/-- A running state at `pc` with `k` entries `v` on the call stack and the word `w` at `pc`. -/
def Tests.at (pc : Word) (k : Fin 17) (v w : Word) : State :=
  ({ State.reset with pc := pc, sp := k, stack := Vector.replicate 16 v }).placeWord w

/-- What a control-flow vector shows: `pc`, `sp`, run state, fault record. -/
def Tests.view (o : Option State) : Option (Word × Fin 17 × RunState × FaultRecord) :=
  o.map fun s => (s.pc, s.sp, s.runState, s.fault)

/-! ### Well-formedness -/

/-- One ill-formed word for each check: the family, the whole word of the control group, `op` of the ALU group. -/
theorem test_illFormedWords : wellFormedWord 0x1234 = false ∧ wellFormedWord 0x00E0 = false ∧ wellFormedWord 0x8016 = false := by
  decide
theorem test_wellFormedWords : wellFormedWord 0x0000 = true ∧ wellFormedWord 0x00EE = true ∧ wellFormedWord 0x2FFF = true ∧
    wellFormedWord 0x8FF5 = true := by decide
/-- An instruction is well formed by its types: there is no ill-formed one. -/
theorem test_everyInstrWellFormed (i : Instr) : i.wellFormed = true := by
  cases i with
  | call n => have := n.isLt; simp [Instr.wellFormed]; omega
  | _ => simp [Instr.wellFormed]

/-! ### Decoding: words written out bit by bit from R55 -/

theorem test_decode_halt : decodeWord 0b0000000000000000 = .ok .halt := by decide
theorem test_decode_return : decodeWord 0b0000000011101110 = .ok .ret := by decide
theorem test_decode_call : decodeWord 0b0010000100000000 = .ok (.call 0x100) := by decide
theorem test_decode_move : decodeWord 0b1000101011110000 = .ok (.move 10 15) := by decide
theorem test_decode_or : decodeWord 0b1000101010110001 = .ok (.or 10 11) := by decide
theorem test_decode_and : decodeWord 0b1000111111110010 = .ok (.and 15 15) := by decide
theorem test_decode_xor : decodeWord 0b1000000000010011 = .ok (.xor 0 1) := by decide
theorem test_decode_add : decodeWord 0b1000000000010100 = .ok (.add 0 1) := by decide
theorem test_decode_sub : decodeWord 0b1000000000010101 = .ok (.sub 0 1) := by decide
/-- Each kind of unsupported word is rejected by its name (R56, R57, R58). -/
theorem test_decode_rejects : decodeWord 0x1234 = .error (.unsupportedFamily 1) ∧
    decodeWord 0x01EE = .error (.unsupportedControlWord 0x01EE) ∧ decodeWord 0x801E = .error (.unsupportedAluOp 0xE) := by decide
theorem test_decode_truncated : decodeBytes [0x21] = .error .truncated := by decide
/-- High byte first (R32, R64). -/
theorem test_decode_bytes : decodeBytes [0x80, 0x14, 0x55] = .ok (.add 0 1, [0x55]) ∧
    encodeBytes (.call 0x100) = [0x21, 0x00] := by decide
/-- 8 bits of 0xEE are the word 0x00EE. -/
theorem test_decodeTableWord : decodeTableWord 16 0x2ABC = some (.call 0xABC) ∧ decodeTableWord 16 0x8016 = none ∧
    decodeTableWord 8 0xEE = some .ret := by decide
/-- The notation of R62. -/
theorem test_asm : asmText (.call 0x0AB) = "CALL 0x0AB" ∧ asmText (.add 0 15) = "ADD r0,r15" ∧ asmText .ret = "RETURN" := by decide

/-! ### One step (expected values from spec/95_test_vectors.md) -/

/-- 2.3, 2.10: MOVE r1,r2 and MOVE r1,r15. -/
theorem test_move : Tests.aluVector 0x8120 0x01 0xFF 0xAA = some (0xFF, 0xFF, 0xAA) ∧
    Tests.aluVector 0x81F0 0x10 0x00 0xAA = some (0xAA, 0x00, 0xAA) := by decide
/-- 2.4, 2.11: OR r1,r2 and OR r15,r2. -/
theorem test_or : Tests.aluVector 0x8121 0xF0 0x3C 0xAA = some (0xFC, 0x3C, 0xAA) ∧
    Tests.aluVector 0x8F21 0x00 0x55 0xAA = some (0x00, 0x55, 0xFF) := by decide
/-- 2.5: AND r1,r2. -/
theorem test_and : Tests.aluVector 0x8122 0xF0 0x3C 0xAA = some (0x30, 0x3C, 0xAA) := by decide
/-- 2.6, 2.12: XOR r1,r2 and XOR r15,r15. -/
theorem test_xor : Tests.aluVector 0x8123 0xF0 0x3C 0xAA = some (0xCC, 0x3C, 0xAA) ∧
    Tests.aluVector 0x8FF3 0x00 0x00 0x7F = some (0x00, 0x00, 0x00) := by decide
/-- 2.7, 2.10: the sum exactly 256; the old flag as operand. -/
theorem test_add : Tests.aluVector 0x8124 0x01 0xFF 0xAA = some (0x00, 0xFF, 0x01) ∧
    Tests.aluVector 0x8124 0xAA 0x55 0xAA = some (0xFF, 0x55, 0x00) ∧
    Tests.aluVector 0x81F4 0xFF 0x00 0x01 = some (0x00, 0x00, 0x01) := by decide
/-- 2.11, 2.12: the flag written last. -/
theorem test_add_flagDestination : Tests.aluVector 0x8F24 0x00 0x01 0x05 = some (0x00, 0x01, 0x00) ∧
    Tests.aluVector 0x8FF4 0x00 0x00 0x80 = some (0x00, 0x00, 0x01) := by decide
/-- 2.8, 2.10: borrow, equal operands, the old flag as subtrahend. -/
theorem test_sub : Tests.aluVector 0x8125 0x05 0x0A 0xAA = some (0xFB, 0x0A, 0x00) ∧
    Tests.aluVector 0x8125 0xFF 0xFF 0xAA = some (0x00, 0xFF, 0x01) ∧
    Tests.aluVector 0x81F5 0x10 0x00 0xAA = some (0x66, 0x00, 0x00) := by decide
/-- 2.11, 2.12. -/
theorem test_sub_flagDestination : Tests.aluVector 0x8F25 0x00 0x05 0x01 = some (0x00, 0x05, 0x00) ∧
    Tests.aluVector 0x8FF5 0x00 0x00 0x7F = some (0x00, 0x00, 0x01) := by decide
/-- 2.13: CALL from 0x0000 and, at the top of memory, from 0x0FFE. -/
theorem test_call : Tests.view (Tests.stepWord 0x2100 State.reset) = some (0x0100, 1, .running, ⟨.noFailure, 0, 0⟩) ∧
    (Tests.stepWord 0x2100 State.reset).map (fun s => s.stack[0]) = some 0x0002 ∧
    (Tests.next? (step (Tests.at 0x0FFE 0 0 0x2101))).map (fun s => (s.pc, s.stack[0])) = some (0x0101, 0x1000) := by decide
/-- 2.13: a full stack, and one with fifteen entries. -/
theorem test_call_overflow :
    Tests.view (Tests.next? (step (Tests.at 0x0010 16 0x0002 0x2100))) =
      some (0x0012, 16, .faulted, ⟨.stackOverflow, 0x2100, 0x0010⟩) ∧
    Tests.view (Tests.next? (step (Tests.at 0x0010 15 0x0002 0x2100))) = some (0x0100, 16, .running, ⟨.noFailure, 0, 0⟩) := by
  decide
/-- 2.13: RETURN. -/
theorem test_return : Tests.view (Tests.next? (step (Tests.at 0x0104 1 0x0002 0x00EE))) =
    some (0x0002, 0, .running, ⟨.noFailure, 0, 0⟩) := by decide
/-- 2.13: RETURN on an empty stack. -/
theorem test_return_underflow : Tests.view (Tests.next? (step (Tests.at 0x0010 0 0x0002 0x00EE))) =
    some (0x0012, 0, .faulted, ⟨.stackUnderflow, 0x00EE, 0x0010⟩) := by decide
/-- 2.13: HALT with calls outstanding. -/
theorem test_halt : Tests.view (Tests.next? (step (Tests.at 0x0010 2 0x0002 0x0000))) =
    some (0x0012, 2, .halted, ⟨.noFailure, 0, 0⟩) := by decide
/-- 2.13, S8: unsupported words. -/
theorem test_unsupported : Tests.view (Tests.stepWord 0x1234 State.reset) =
      some (0x0002, 0, .faulted, ⟨.unsupportedInstruction, 0x1234, 0x0000⟩) ∧
    Tests.view (Tests.next? (step (Tests.at 0x0010 0 0 0x8016))) =
      some (0x0012, 0, .faulted, ⟨.unsupportedInstruction, 0x8016, 0x0010⟩) := by decide
/-- 2.2: out of bounds at 0x0FFF and 0x1000; in bounds at 0x0FFE and at an odd address. -/
theorem test_bounds :
    Tests.view (Tests.next? (step { State.reset with runState := .running, pc := 0x0FFF })) =
      some (0x0FFF, 0, .faulted, ⟨.outOfBounds, 0x0000, 0x0FFF⟩) ∧
    Tests.view (Tests.next? (step { State.reset with runState := .running, pc := 0x1000 })) =
      some (0x1000, 0, .faulted, ⟨.outOfBounds, 0x0000, 0x1000⟩) ∧
    Tests.view (Tests.next? (step (Tests.at 0x0FFE 0 0 0x8014))) = some (0x1000, 0, .running, ⟨.noFailure, 0, 0⟩) ∧
    Tests.view (Tests.next? (step (Tests.at 0x0101 0 0 0x8014))) = some (0x0103, 0, .running, ⟨.noFailure, 0, 0⟩) := by decide
/-- Launch by the host: load, preset, start (R176, P1). -/
theorem test_launch :
    (Tests.next? (hostActs [.loadProgram 0x000 [0x2100, 0x0000], .presetReg 0 5, .start] State.reset)).map
      (fun s => (s.mem, s.reg 0, s.runState)) =
    some ([(0, 0x21), (1, 0x00), (2, 0x00), (3, 0x00)], 5, .running) := by decide
/-- A load outside memory stops by name, and so does a preset of a running core. -/
theorem test_hostStops : hostAct (.loadByte 0x1000 0) State.reset = .fault (.noSuchAddress 0x1000) ∧
    hostAct (.presetReg 0 1) (State.reset.placeWord 0) = .refused (.hostMoveNotAllowed .running) := ⟨rfl, rfl⟩

/-! ### Witnesses: for each statement with hypotheses, a state and operands that meet them -/

/-- The invariant at a running state one call deep. -/
theorem witness_Inv_running : (Tests.at 0x0104 1 0x0002 0x00EE).Inv :=
  ⟨rfl, by decide, by decide, fun _ => rfl, fun h => absurd h (by decide)⟩
/-- The invariant at a state faulted by each kind of failure. -/
theorem witness_Inv_faulted :
    ({ State.reset with pc := 0x0FFF, runState := .faulted, fault := ⟨.outOfBounds, 0, 0x0FFF⟩ } : State).Inv ∧
    ({ State.reset with pc := 0x0002, runState := .faulted, fault := ⟨.unsupportedInstruction, 0x1234, 0⟩ } : State).Inv ∧
    ({ State.reset with pc := 0x0002, runState := .faulted, fault := ⟨.stackUnderflow, 0x00EE, 0⟩ } : State).Inv ∧
    ({ State.reset with pc := 0x0002, sp := 16, stack := Vector.replicate 16 0x0002, runState := .faulted,
                        fault := ⟨.stackOverflow, 0x2000, 0⟩ } : State).Inv :=
  ⟨⟨rfl, by decide, by decide, fun h => absurd rfl h, fun _ => ⟨rfl, rfl, by decide⟩⟩,
   ⟨rfl, by decide, by decide, fun h => absurd rfl h, fun _ => ⟨by decide, by decide, by decide⟩⟩,
   ⟨rfl, by decide, by decide, fun h => absurd rfl h, fun _ => ⟨rfl, rfl, by decide, by decide⟩⟩,
   ⟨rfl, by decide, by decide, fun h => absurd rfl h, fun _ => ⟨⟨0, by decide⟩, rfl, by decide, by decide⟩⟩⟩

theorem witness_HaltStopsTheCore : (Tests.at 0x0FFE 2 0 0x0000).runState = .running ∧
    (Tests.at 0x0FFE 2 0 0x0000).pc.toNat ≤ 0x0FFE ∧ (Tests.at 0x0FFE 2 0 0x0000).fetchWord = 0x0000 ∧
    ∃ t, hostAct .start { State.reset with runState := .halted } = .next t := ⟨rfl, by decide, by decide, _, rfl⟩
theorem witness_ReturnPopsTheCallStack :
    ((Tests.at 0 16 0x1000 0x00EE).sp.val = (15 : Fin 16).val + 1 ∧ (Tests.at 0 16 0x1000 0x00EE).runState = .running ∧ (Tests.at 0 16 0x1000 0x00EE).pc.toNat ≤ 0x0FFE ∧
      (Tests.at 0 16 0x1000 0x00EE).fetchWord = 0x00EE ∧ 0x0FFE < (Tests.at 0 16 0x1000 0x00EE).stack[(15 : Fin 16)].toNat) ∧
    ((Tests.at 0 0 0 0x00EE).sp.val = 0 ∧ (Tests.at 0 0 0 0x00EE).runState = .running ∧
      (Tests.at 0 0 0 0x00EE).pc.toNat ≤ 0x0FFE ∧ (Tests.at 0 0 0 0x00EE).fetchWord = 0x00EE) :=
  ⟨⟨by decide, rfl, by decide, by decide, by decide⟩,
   by decide⟩
theorem witness_CallPushesAndJumps :
    ((Tests.at 0 15 0 (callWord 0xFFF)).sp.val = (15 : Fin 16).val ∧ (Tests.at 0 15 0 (callWord 0xFFF)).runState = .running ∧
      (Tests.at 0 15 0 (callWord 0xFFF)).fetchWord = callWord 0xFFF ∧ 0x0FFE < (0xFFF : Addr12).toNat) ∧
    ((Tests.at 0 16 0 (callWord 0x100)).sp.val = 16 ∧ (Tests.at 0 16 0 (callWord 0x100)).fetchWord = callWord 0x100 ∧
      (Tests.at 0 16 0 (callWord 0x100)).pc.toNat ≤ 0x0FFE) ∧
    ((Tests.at 0x0FFE 0 0 (callWord 0xFFE)).runState = .running ∧
      (Tests.at 0x0FFE 0 0 (callWord 0xFFE)).pc = (0xFFE : Addr12).setWidth 16 ∧ (0xFFE : Addr12).toNat ≤ 0x0FFE ∧
      (Tests.at 0x0FFE 0 0 (callWord 0xFFE)).fetchWord = callWord 0xFFE ∧ (Tests.at 0x0FFE 0 0 (callWord 0xFFE)).sp.val = 0) := by
  decide

/-- CALL 0x100 at 0x000 and RETURN at 0x100 (S3). -/
def Tests.callReturn : State := { State.reset with runState := .running, mem := [(0, 0x21), (1, 0x00), (0x100, 0x00), (0x101, 0xEE)] }
/-- The state after its CALL. -/
def Tests.called : State := { Tests.callReturn with pc := 0x0100, sp := 1, stack := (Vector.replicate 16 0x0000).set 0 0x0002 }
theorem witness_ReturnUndoesItsCall_pair : Tests.callReturn.runState = .running ∧ Tests.callReturn.pc.toNat ≤ 0x0FFE ∧
    Tests.callReturn.fetchWord = callWord 0x100 ∧ Tests.callReturn.sp.val < 16 ∧ (0x100 : Addr12).toNat ≤ 0x0FFE ∧
    Tests.callReturn.memByte (0x100 : Addr12).toNat = 0x00 ∧ Tests.callReturn.memByte ((0x100 : Addr12).toNat + 1) = 0xEE := by
  decide
theorem witness_ReturnUndoesItsCall_general :
    (∀ j v, 1 ≤ j → j ≤ 1 → runSteps j Tests.callReturn = .next v → Tests.callReturn.sp.val < v.sp.val) ∧
    runSteps 1 Tests.callReturn = .next Tests.called ∧ Tests.called.sp.val = Tests.callReturn.sp.val + 1 ∧
    Tests.called.runState = .running ∧ Tests.called.pc.toNat ≤ 0x0FFE ∧ Tests.called.fetchWord = 0x00EE ∧
    ∃ u, step Tests.called = .next u := by
  have h : runSteps 1 Tests.callReturn = .next Tests.called := rfl
  refine ⟨fun j v h1 h2 hv => ?_, h, by decide, rfl, by decide, by decide, _, rfl⟩
  obtain rfl : j = 1 := by omega
  rw [h] at hv
  cases hv
  decide
theorem witness_NestingDepthIsSixteen :
    (Tests.at 0 0 0 0).runState = .running ∧ (Tests.at 0 0 0 0).sp.val = 0 ∧
    (∀ i ∈ Instr.add 0 1 :: List.replicate 16 (.call 0x100), isCall i = true ∨ aluDest i ≠ none) ∧
    (Instr.add 0 1 :: List.replicate 16 (.call 0x100)).countP isCall = 16 := by decide
theorem witness_ControlFlowFrame : aluDest .halt = none ∧ aluDest .ret = none ∧ aluDest (.call 5) = none ∧
    (∃ t, exec .halt (Tests.at 0 3 0 0) = .next t) ∧ (∃ t, exec .ret (Tests.at 0 3 0 0) = .next t) ∧
    (∃ t, exec (.call 5) (Tests.at 0 3 0 0) = .next t) ∧ ∃ t, exec (.call 5) (Tests.at 0 16 0 0) = .next t :=
  ⟨rfl, rfl, rfl, ⟨_, rfl⟩, ⟨_, rfl⟩, ⟨_, rfl⟩, ⟨_, rfl⟩⟩
/-- The destinations of AddWritesSumThenCarry, SubWritesDifferenceThenNotBorrow, ArithmeticIsExactWithFlag and
SubtractIsAdderWithComplement, at the border. -/
theorem witness_destinationNotFlag : (14 : Reg) ≠ 15 ∧ ∃ t, exec (.sub 14 15) (Tests.regs 0 0 0x80) = .next t := ⟨by decide, _, rfl⟩
theorem witness_AluFrame_FlagIsWholeByte : aluDest (.add 15 1) = some (15, true) ∧ aluDest (.move 3 15) = some (3, false) ∧
    (3 : Reg) ≠ 15 ∧ (∃ t, exec (.add 15 1) (Tests.regs 1 2 3) = .next t) ∧ ∃ t, exec (.move 3 15) (Tests.regs 1 2 3) = .next t :=
  ⟨rfl, rfl, by decide, ⟨_, rfl⟩, _, rfl⟩
theorem witness_AluInstructionsNeverFail : aluDest (.sub 15 15) ≠ none ∧
    ((Tests.at 0 0 0 0x8FF5).runState = .running ∧ (splitWord (Tests.at 0 0 0 0x8FF5).fetchWord).family = 0x8 ∧
      (splitWord (Tests.at 0 0 0 0x8FF5).fetchWord).op.toNat ≤ 5) ∧
    ((splitWord (Tests.at 0 0 0 0x8FF6).fetchWord).family = 0x8 ∧ 6 ≤ (splitWord (Tests.at 0 0 0 0x8FF6).fetchWord).op.toNat) := by
  decide
theorem witness_DecodeInvertsEncode : decodeWord 0x2FFF = .ok (.call 0xFFF) ∧ decodeWord 0x8FF5 = .ok (.sub 15 15) := by decide
theorem witness_DecoderIsTheOpcodeTable : (⟨"CALL", 0x2000, 0xF000⟩ : OpcodeRow) ∈ opcodeTable := by decide
theorem witness_UnsupportedInstructionIsRaised : HasNoHandler 0x1234 ∧ HasNoHandler 0x0FFF ∧ HasNoHandler 0x8FF6 ∧
    HasNoHandler 0xFFFF ∧ ¬ HasNoHandler 0x8FF5 ∧ ¬ HasNoHandler 0x00EE ∧ ¬ HasNoHandler 0x0000 ∧ ¬ HasNoHandler 0x2000 ∧
    (Tests.at 0x0FFE 0 0 0x1234).runState = .running ∧ (Tests.at 0x0FFE 0 0 0x1234).pc.toNat ≤ 0x0FFE ∧
    (Tests.at 0x0FFE 0 0 0x1234).fetchWord = 0x1234 ∧ (Tests.at 0 0 0 0x00EE).fault.cause ≠ .unsupportedInstruction :=
  ⟨by decide, by decide, by decide, by decide, by decide, by decide, by decide, by decide, rfl, by decide, by decide, by decide⟩
theorem witness_UnsupportedWordsFail : (Tests.at 0 0 0 0x0FFF).runState = .running ∧ (Tests.at 0 0 0 0x0FFF).pc.toNat ≤ 0x0FFE ∧
    wellFormedWord (Tests.at 0 0 0 0x0FFF).fetchWord = false := by decide
theorem witness_StepRunsTheDecodedInstruction :
    (Tests.at 0x0FFE 0 0 0x8014).runState = .running ∧ (Tests.at 0x0FFE 0 0 0x8014).pc.toNat ≤ 0x0FFE ∧
    decodeBytes [(Tests.at 0x0FFE 0 0 0x8014).memByte 0xFFE, (Tests.at 0x0FFE 0 0 0x8014).memByte 0xFFF] = .ok (.add 0 1, []) ∧
    decodeBytes [(Tests.at 0x0FFE 0 0 0x1234).memByte 0xFFE, (Tests.at 0x0FFE 0 0 0x1234).memByte 0xFFF] =
      .error (.unsupportedFamily 1) := by decide
theorem witness_FetchIsBigEndian : Tests.callReturn.pc = 0x0000 ∧ Tests.callReturn.memByte 0x000 = 0x21 ∧
    Tests.callReturn.memByte 0x001 = 0x00 := by decide
theorem witness_OutOfBoundsExactlyAboveFFE : 0x0FFE < ({ Tests.callReturn with pc := 0x0FFF } : State).pc.toNat ∧
    0x0FFE < ({ Tests.callReturn with pc := 0xFFFF } : State).pc.toNat ∧ ¬ 0x0FFE < (Tests.at 0x0FFE 0 0 0).pc.toNat ∧
    Tests.callReturn.runState = .running ∧ Tests.callReturn.fault.cause = .noFailure ∧
    ∃ t, step { Tests.callReturn with pc := 0x0FFF } = .next t :=
  ⟨by decide, by decide, by decide, rfl, rfl, _, rfl⟩
theorem witness_StepDoesNothingUnlessRunning : State.reset.runState = .idle ∧ (State.reset.setRunState .halted).runState = .halted ∧
    (State.reset.setRunState .faulted).runState = .faulted := by decide
theorem witness_PcAfterEachInstruction :
    (decodeWord (Tests.at 0x0FFE 1 2 0x0000).fetchWord = .ok .halt ∧ ∃ t, step (Tests.at 0x0FFE 1 2 0x0000) = .next t) ∧
    (decodeWord (Tests.at 0x0FFE 15 2 0x2000).fetchWord = .ok (.call 0) ∧ (Tests.at 0x0FFE 15 2 0x2000).sp.val < 16 ∧
      ∃ t, step (Tests.at 0x0FFE 15 2 0x2000) = .next t) ∧
    (decodeWord (Tests.at 0x0FFE 16 2 0x00EE).fetchWord = .ok .ret ∧
      (Tests.at 0x0FFE 16 2 0x00EE).sp.val = (15 : Fin 16).val + 1 ∧ ∃ t, step (Tests.at 0x0FFE 16 2 0x00EE) = .next t) ∧
    (decodeWord (Tests.at 0x0FFE 1 2 0x8FF4).fetchWord = .ok (.add 15 15) ∧ ∃ t, step (Tests.at 0x0FFE 1 2 0x8FF4) = .next t) :=
  ⟨⟨by decide, _, rfl⟩, ⟨by decide, by decide, _, rfl⟩, ⟨by decide, by decide, _, rfl⟩, ⟨by decide, _, rfl⟩⟩
/-- A run of CoreNeverWritesMemory and GroupingOfStepsChangesNothing, and a core that does not run. -/
theorem witness_runs : runSteps 1 Tests.callReturn = .next Tests.called ∧ State.reset.runState ≠ .running := ⟨rfl, by decide⟩
/-- Two memories that agree on the two fetched bytes and differ elsewhere. -/
theorem witness_StepReadsOnlyTheFetchedBytes : (∃ t, step Tests.callReturn = .next t) ∧
    (∀ a, a = Tests.callReturn.pc.toNat ∨ a = Tests.callReturn.pc.toNat + 1 →
      ({ Tests.callReturn with mem := [(0, 0x21), (1, 0x00)] } : State).memByte a = Tests.callReturn.memByte a) ∧
    Tests.callReturn.mem ≠ [(0, 0x21), (1, 0x00)] :=
  ⟨⟨_, rfl⟩, fun a h => by rcases h with rfl | rfl <;> decide, by decide⟩
theorem witness_RegistersWrittenOnlyByAlu : ∃ t, step ((Tests.regs 1 2 3).placeWord 0x8124) = .next t ∧
    t.reg 15 ≠ ((Tests.regs 1 2 3).placeWord 0x8124).reg 15 := ⟨_, rfl, by decide⟩
theorem witness_CallStackMovesOnlyByCallAndReturn : ∃ t, step Tests.callReturn = .next t ∧ t.stack ≠ Tests.callReturn.stack ∧
    t.sp ≠ Tests.callReturn.sp := ⟨Tests.called, rfl, by decide, by decide⟩
/-- Two states that differ in a dead entry. -/
theorem witness_DeadEntriesAreUnobservable : SameLive (Tests.at 0 1 2 0x00EE) { Tests.at 0 1 2 0x00EE with
      stack := (Tests.at 0 1 2 0x00EE).stack.set 1 0x1234 } ∧
    (Tests.at 0 1 2 0x00EE).stack ≠ (Tests.at 0 1 2 0x00EE).stack.set 1 0x1234 ∧ ∃ t, exec .ret (Tests.at 0 1 2 0x00EE) = .next t :=
  ⟨⟨rfl, rfl, rfl, by decide, rfl, rfl, rfl⟩, by decide, _, rfl⟩
/-- Each of the four failures, and none, is met by a running state (ExactlyFourFailures, FailuresArePrecise, RunStateTransitions,
FaultRecordWrittenOnlyByFailure). -/
theorem witness_stepFailure :
    stepFailure { Tests.callReturn with pc := 0x0FFF } = some .outOfBounds ∧
    stepFailure (Tests.at 0 0 0 0x1234) = some .unsupportedInstruction ∧
    stepFailure (Tests.at 0 16 0 0x2000) = some .stackOverflow ∧ stepFailure (Tests.at 0 0 0 0x00EE) = some .stackUnderflow ∧
    stepFailure (Tests.at 0 15 0 0x2000) = none ∧ stepFailure (Tests.at 0 1 0 0x00EE) = none ∧
    stepFailure (Tests.at 0x0FFE 0 0 0x0000) = none := by decide
theorem witness_faultRecordChanges : ∃ t, step (Tests.at 0 0 0 0x1234) = .next t ∧ t.fault ≠ (Tests.at 0 0 0 0x1234).fault ∧
    hostAct .start t = .next t := ⟨_, rfl, by decide, rfl⟩
theorem witness_StepKeepsInvariant : (Tests.at 0x0104 1 0x0002 0x00EE).Inv ∧ ∃ t, step (Tests.at 0x0104 1 0x0002 0x00EE) = .next t :=
  ⟨witness_Inv_running, _, rfl⟩
theorem witness_HostMovesKeepInvariant : State.reset.Inv ∧ (∃ t, hostAct (.loadProgram 0x0FFE [0x8014]) State.reset = .next t) ∧
    (∃ t, hostAct (.loadByte 0x0FFF 1) State.reset = .next t) ∧ ∃ t, hostAct (.presetReg 15 1) State.reset = .next t :=
  ⟨⟨rfl, by decide, by decide, fun _ => rfl, fun h => absurd h (by decide)⟩, ⟨_, rfl⟩, ⟨_, rfl⟩, ⟨_, rfl⟩⟩
/-- IDLE and not IDLE (StartOnlyLeavesIdle, PresetWritesOneRegisterWhileIdle), RUNNING (HostOnlyResetsWhileRunning, with its two moves),
not RUNNING with an entry in use (HostSeesTheState). -/
theorem witness_hostStates : State.reset.runState = .idle ∧ Tests.called.runState ≠ .idle ∧ Tests.called.runState = .running ∧
    (∃ t, hostAct .reset Tests.called = .next t) ∧ hostAct .start Tests.called = .next Tests.called ∧
    (Tests.called.setRunState .halted).runState ≠ .running ∧ (0 : Fin 16).val < (Tests.called.setRunState .halted).sp.val :=
  ⟨rfl, by decide, rfl, ⟨_, rfl⟩, rfl, by decide, by decide⟩
/-- Outside IDLE, and the first addresses outside memory while IDLE: of one byte, and of a word that straddles the end. -/
theorem witness_HostMovesNotGivenStopByName : Tests.called.runState ≠ .idle ∧ (Tests.called.setRunState .halted).runState ≠ .idle ∧
    State.reset.runState = .idle ∧ 0x1000 ≤ 0x1000 ∧ 0x1000 < 0x0FFF + 2 * [(0x2100 : Word)].length ∧
    hostAct (.loadProgram 0x0FFF [0x2100]) State.reset = .fault (.noSuchAddress 0x1000) ∧
    hostAct (.loadByte 0x0000 0) Tests.called = .refused (.hostMoveNotAllowed .running) :=
  ⟨by decide, by decide, rfl, by decide, by decide, rfl, rfl⟩
theorem witness_LoadedProgramIsFetched : State.reset.runState = .idle ∧ 0x0FFC + 2 * [(0x2100 : Word), 0x0000].length ≤ 0x1000 ∧
    (1 : Nat) < [(0x2100 : Word), 0x0000].length := by decide
theorem witness_LaunchStateIsFixed :
    (∀ m ∈ [HostMove.presetReg 0 1, .loadProgram 0 [0x8014], .presetReg 0 5], m ≠ .reset ∧ m ≠ .start) ∧
    ∃ u, hostActs [.presetReg 0 1, .loadProgram 0 [0x8014], .presetReg 0 5] (hostReset State.reset) = .next u :=
  ⟨by decide, _, rfl⟩
theorem witness_EveryRunEnds : Tests.callReturn.runState = .running ∧ Tests.callReturn.sp.val = 0 := by decide
end

/-! PROOFS. The decoder against the opcode table: a word's masks by its fields, and what each decoded instruction says of its
word (spec/30_encoding.md R51, R54, R55). -/

namespace Sys2Proof

/-- Masking a word masks its `family`. -/
theorem splitWord_and_family (v w : Word) :
    (splitWord (v &&& w)).family = (splitWord v).family &&& (splitWord w).family := BitVec.extractLsb'_and ..

/-- Masking a word masks its `op`. -/
theorem splitWord_and_op (v w : Word) :
    (splitWord (v &&& w)).op = (splitWord v).op &&& (splitWord w).op := BitVec.extractLsb'_and ..

/-- A nibble masked with 0xF is itself. -/
theorem nibble_and_F (f : BitVec 4) : f &&& 0xF = f := BitVec.and_allOnes

/-- The mask 0xF000 of CALL's row keeps `family` alone. -/
theorem family_of_and_F000 {w p : Word} (h : w &&& 0xF000 = p) : (splitWord w).family = (splitWord p).family := by
  have hm : (splitWord 0xF000).family = 0xF := by decide
  rw [← h, splitWord_and_family, hm, nibble_and_F]

/-- The mask 0xF00F of the ALU rows keeps `family` and `op`. -/
theorem family_op_of_and_F00F {w p : Word} (h : w &&& 0xF00F = p) :
    (splitWord w).family = (splitWord p).family ∧ (splitWord w).op = (splitWord p).op := by
  have hf : (splitWord 0xF00F).family = 0xF := by decide
  have ho : (splitWord 0xF00F).op = 0xF := by decide
  rw [← h, splitWord_and_family, splitWord_and_op, hf, ho, nibble_and_F, nibble_and_F]
  exact ⟨rfl, rfl⟩

/-- Family 0x2 is CALL, whatever the address (R56). -/
theorem decodeWord_of_family_2 {w : Word} (h : (splitWord w).family = 0x2) :
    decodeWord w = .ok (.call (splitWord w).addr12) := by
  simp [decodeWord, h]

/-- Family 0x8 goes to the ALU group (R58). -/
theorem decodeWord_of_family_8 {w : Word} (h : (splitWord w).family = 0x8) : decodeWord w = decodeAlu (splitWord w) := by
  simp [decodeWord, h]

/-- A word that a row of the opcode table matches is an instruction (R55). -/
theorem decodeWord_of_matchesWord {w : Word} {row : OpcodeRow} (hrow : row ∈ opcodeTable) (h : row.matchesWord w = true) :
    ∃ i, decodeWord w = .ok i := by
  rw [OpcodeRow.matchesWord, beq_iff_eq] at h
  simp only [opcodeTable, List.mem_cons, List.not_mem_nil, or_false] at hrow
  rcases hrow with rfl | rfl | rfl | hrow
  · exact ⟨.halt, by rw [← BitVec.and_allOnes (x := w)]; exact h ▸ rfl⟩
  · exact ⟨.ret, by rw [← BitVec.and_allOnes (x := w)]; exact h ▸ rfl⟩
  · exact ⟨_, decodeWord_of_family_2 (family_of_and_F000 h)⟩
  · rcases hrow with rfl | rfl | rfl | rfl | rfl | rfl <;>
    · obtain ⟨hf, ho⟩ := family_op_of_and_F00F h
      rw [decodeWord_of_family_8 hf, decodeAlu, ho]
      exact ⟨_, rfl⟩

/-- The word of an ALU instruction from the fields it was decoded from. -/
theorem encodeAlu_splitWord {w : Word} {k : Nat} (hf : (splitWord w).family = 0x8) (ho : (splitWord w).op.toNat = k) :
    encodeAlu k (regOfField (splitWord w).x) (regOfField (splitWord w).y) = w := by
  apply BitVec.eq_of_toNat_eq
  have h := (splitWord_toNat w).1
  have := w.isLt
  simp only [hf, ho] at h
  simp [encodeAlu, regOfField] at h ⊢
  omega

/-- What the ALU group decodes, the encoder gives back. -/
theorem encode_decodeAlu {w : Word} {i : Instr} (hf : (splitWord w).family = 0x8) (h : decodeAlu (splitWord w) = .ok i) :
    encode i = w := by
  unfold decodeAlu at h
  split_ifs at h <;> cases h <;> rename_i ho <;> exact encodeAlu_splitWord hf (by rw [ho]; rfl)

/-- Encoding inverts decoding on every supported word (R64). -/
theorem encode_decodeWord {w : Word} {i : Instr} (h : decodeWord w = .ok i) : encode i = w := by
  unfold decodeWord at h
  dsimp only at h
  split_ifs at h with h0 h2 h8
  · unfold decodeControl at h
    split_ifs at h with hw hw <;> cases h <;> exact hw.symm
  · cases h
    have h := (splitWord_toNat w).2
    rw [h2] at h
    apply BitVec.eq_of_toNat_eq
    have := w.isLt
    simp [encode] at h ⊢
    omega
  · exact encode_decodeAlu h8 h

/-- Of each instruction's word exactly the row of its own mnemonic matches, for all nine instructions. -/
theorem rowMatches (i : Instr) : Laws.RowMatches.Statement i := by
  cases i with
  | halt => exact Laws.RowMatches.halt
  | ret => exact Laws.RowMatches.ret
  | call n => exact Laws.RowMatches.call n
  | move x y => exact Laws.RowMatches.move x y
  | or x y => exact Laws.RowMatches.or x y
  | and x y => exact Laws.RowMatches.and x y
  | xor x y => exact Laws.RowMatches.xor x y
  | add x y => exact Laws.RowMatches.add x y
  | sub x y => exact Laws.RowMatches.sub x y

/-- Some row of the opcode table has an instruction's mnemonic. -/
theorem exists_row_of_mnemonic (i : Instr) : ∃ row ∈ opcodeTable, row.mnemonic = i.mnemonic := by
  cases i <;> simp [opcodeTable, Instr.mnemonic]

/-- A decoded word is well formed (R55). -/
theorem wellFormedWord_of_decodeWord {w : Word} {i : Instr} (h : decodeWord w = .ok i) : wellFormedWord w = true := by
  obtain ⟨row, hrow, hm⟩ := exists_row_of_mnemonic i
  have hmatch := rowMatches i row hrow
  rw [encode_decodeWord h, hm, beq_self_eq_true] at hmatch
  exact List.any_eq_true.mpr ⟨row, hrow, hmatch⟩

/-- A rejected word is not well formed (R55, R59). -/
theorem wellFormedWord_of_error {w : Word} {e : DecodeReject} (h : decodeWord w = .error e) : wellFormedWord w = false := by
  rw [← Bool.not_eq_true, wellFormedWord, List.any_eq_true]
  rintro ⟨row, hrow, hmatch⟩
  obtain ⟨i, hi⟩ := decodeWord_of_matchesWord hrow hmatch
  rw [hi] at h
  cases h

/-- Only HALT's word is 0x0000. -/
theorem word_eq_halt_iff {w : Word} {i : Instr} (h : decodeWord w = .ok i) : w = 0x0000 ↔ i = .halt := by
  constructor
  · rintro rfl; exact (Except.ok.inj h).symm
  · rintro rfl; exact (encode_decodeWord h).symm

/-- Only RETURN's word is 0x00EE. -/
theorem word_eq_ret_iff {w : Word} {i : Instr} (h : decodeWord w = .ok i) : w = 0x00EE ↔ i = .ret := by
  constructor
  · rintro rfl; exact (Except.ok.inj h).symm
  · rintro rfl; exact (encode_decodeWord h).symm

/-- Only a CALL's word begins with the nibble 0x2. -/
theorem word_and_F000_iff {w : Word} {i : Instr} (h : decodeWord w = .ok i) :
    w &&& 0xF000 = 0x2000 ↔ ∃ n, i = .call n := by
  constructor
  · intro hw
    rw [decodeWord_of_family_2 (family_of_and_F000 hw)] at h
    exact ⟨_, (Except.ok.inj h).symm⟩
  · rintro ⟨n, rfl⟩
    have := Laws.RowMatches.call n ⟨"CALL", 0x2000, 0xF000⟩ (by decide)
    rw [encode_decodeWord h, OpcodeRow.matchesWord] at this
    exact beq_iff_eq.mp this
end Sys2Proof

/-! PROOFS. Everything an instruction can do and everything a step can do, once each: the invariants and frames below are read
off these two. -/

namespace Sys2Proof.Machine

/-! ### What an instruction can do -/

/-- What `exec` can make of a state `s`: one constructor per instruction and, for RETURN and CALL, one for the failure. -/
inductive ExecEffect (s : State) : Instr → State → Prop
  /-- HALT (R90) -/
  | halts : ExecEffect s .halt (s.setRunState .halted)
  /-- RETURN with an entry to pop (R91) -/
  | returns (k : Fin 16) (hk : s.sp.val = k.val + 1) : ExecEffect s .ret { s with sp := k.castSucc, pc := s.stack[k] }
  /-- RETURN on an empty stack (R143) -/
  | underflows (hsp : s.sp.val = 0) : ExecEffect s .ret (s.raise .stackUnderflow (encode .ret) s.fetchAddr)
  /-- CALL with room for an entry (R92) -/
  | calls (n : Addr12) (k : Fin 16) (hk : s.sp.val = k.val) :
    ExecEffect s (.call n) { s with stack := s.stack.set k.val s.pc, sp := k.succ, pc := callTarget n }
  /-- CALL on a full stack (R142) -/
  | overflows (n : Addr12) (hsp : s.sp.val = 16) :
    ExecEffect s (.call n) (s.raise .stackOverflow (encode (.call n)) s.fetchAddr)
  /-- MOVE, OR, AND, XOR (R106) -/
  | writes (i : Instr) (x : Reg) (v : Byte) (hi : aluDest i = some (x, false)) : ExecEffect s i (s.setReg x v)
  /-- ADD, SUB (R106, R108) -/
  | writesFlagged (i : Instr) (x : Reg) (v : Byte) (b : Bool) (hi : aluDest i = some (x, true)) :
    ExecEffect s i (s.setRegThenFlag x v (flagByte b))

/-- RETURN with an entry to pop. -/
theorem exec_ret_of_pos {s : State} {k : Fin 16} (hk : s.sp.val = k.val + 1) :
    exec .ret s = .next { s with sp := k.castSucc, pc := s.stack[k] } := by
  simp [exec, execReturn, pop?_of_pos (show 0 < s.sp.val by omega), State.setPc, hk]
  rfl

/-- RETURN on an empty stack. -/
theorem exec_ret_of_zero {s : State} (h : s.sp.val = 0) :
    exec .ret s = .next (s.raise .stackUnderflow (encode .ret) s.fetchAddr) := by
  simp [exec, execReturn, pop?_eq_none.mpr h]

/-- CALL with room for an entry. -/
theorem exec_call_of_lt {s : State} {k : Fin 16} (n : Addr12) (hk : s.sp.val = k.val) :
    exec (.call n) s = .next { s with stack := s.stack.set k.val s.pc, sp := k.succ, pc := callTarget n } := by
  simp [exec, execCall, push?_of_lt s.pc (show s.sp.val < 16 by omega), State.setPc, hk]
  rfl

/-- CALL on a full stack. -/
theorem exec_call_of_full {s : State} (n : Addr12) (h : s.sp.val = 16) :
    exec (.call n) s = .next (s.raise .stackOverflow (encode (.call n)) s.fetchAddr) := by
  simp [exec, execCall, push?_eq_none.mpr h]

/-- `sp` is 0 or one above an entry's index. -/
theorem sp_zero_or_succ (s : State) : s.sp.val = 0 ∨ ∃ k : Fin 16, s.sp.val = k.val + 1 := by
  rcases Nat.eq_zero_or_pos s.sp.val with h | h
  · exact .inl h
  · exact .inr ⟨⟨s.sp.val - 1, by omega⟩, by simp; omega⟩

/-- `sp` is an entry's index or 16. -/
theorem sp_entry_or_full (s : State) : (∃ k : Fin 16, s.sp.val = k.val) ∨ s.sp.val = 16 := by
  rcases Nat.lt_or_ge s.sp.val 16 with h | h
  · exact .inl ⟨⟨s.sp.val, h⟩, rfl⟩
  · exact .inr (by omega)

/-- `exec` answers a next state, by one of the effects. -/
theorem exec_effect (i : Instr) (s : State) : ∃ t, exec i s = .next t ∧ ExecEffect s i t := by
  cases i with
  | halt => exact ⟨_, rfl, .halts⟩
  | ret =>
    obtain h | ⟨k, hk⟩ := sp_zero_or_succ s
    · exact ⟨_, exec_ret_of_zero h, .underflows h⟩
    · exact ⟨_, exec_ret_of_pos hk, .returns k hk⟩
  | call n =>
    obtain ⟨k, hk⟩ | h := sp_entry_or_full s
    · exact ⟨_, exec_call_of_lt n hk, .calls n k hk⟩
    · exact ⟨_, exec_call_of_full n h, .overflows n h⟩
  | move x y | or x y | and x y | xor x y => exact ⟨_, rfl, .writes _ x _ rfl⟩
  | add x y | sub x y => exact ⟨_, rfl, .writesFlagged _ x _ _ rfl⟩

/-- What `exec` answered is one of the effects. -/
theorem execEffect_of_next {i : Instr} {s t : State} (h : exec i s = .next t) : ExecEffect s i t := by
  obtain ⟨u, hu, he⟩ := exec_effect i s
  rw [h] at hu
  cases hu
  exact he

/-! ### What a step can do -/

/-- What `step` can make of a state `s` (R70). -/
inductive StepEffect (s : State) : State → Prop
  /-- not RUNNING (R77) -/
  | stays (hr : s.runState ≠ .running) : StepEffect s s
  /-- `pc` above 0x0FFE (R71, R144) -/
  | outOfBounds (hr : s.runState = .running) (hb : 0x0FFE < s.pc.toNat) : StepEffect s s.raiseOutOfBounds
  /-- the fetched word is no instruction (R141) -/
  | unsupported (e : DecodeReject) (hr : s.runState = .running) (hb : s.pc.toNat ≤ 0x0FFE)
    (hd : decodeWord s.fetchWord = .error e) : StepEffect s (s.advance.raiseUnsupported s.fetchWord)
  /-- the fetched instruction is executed (R75) -/
  | executes (i : Instr) {t : State} (hr : s.runState = .running) (hb : s.pc.toNat ≤ 0x0FFE)
    (hd : decodeWord s.fetchWord = .ok i) (he : ExecEffect s.advance i t) : StepEffect s t

/-- A step within bounds whose word decodes is that instruction's behaviour. -/
theorem step_of_decode {s : State} {i : Instr} (hr : s.runState = .running) (hb : s.pc.toNat ≤ 0x0FFE)
    (hd : decodeWord s.fetchWord = .ok i) : step s = exec i s.advance := by
  rw [step_of_in_bounds hr hb, hd]

/-- A step within bounds whose word is no instruction. -/
theorem step_of_reject {s : State} {e : DecodeReject} (hr : s.runState = .running) (hb : s.pc.toNat ≤ 0x0FFE)
    (hd : decodeWord s.fetchWord = .error e) : step s = .next (s.advance.raiseUnsupported s.fetchWord) := by
  rw [step_of_in_bounds hr hb, hd]

/-- `step` answers a next state, by one of the effects. -/
theorem step_effect (s : State) : ∃ t, step s = .next t ∧ StepEffect s t := by
  by_cases hr : s.runState = .running
  · rcases Nat.lt_or_ge 0x0FFE s.pc.toNat with hb | hb
    · exact ⟨_, step_of_out_of_bounds hr hb, .outOfBounds hr hb⟩
    · cases hd : decodeWord s.fetchWord with
      | ok i =>
        obtain ⟨t, ht, he⟩ := exec_effect i s.advance
        exact ⟨t, (step_of_decode hr hb hd).trans ht, .executes i hr hb hd he⟩
      | error e => exact ⟨_, step_of_reject hr hb hd, .unsupported e hr hb hd⟩
  · exact ⟨s, step_of_not_running hr, .stays hr⟩

/-- What `step` answered is one of the effects. -/
theorem stepEffect_of_next {s t : State} (h : step s = .next t) : StepEffect s t := by
  obtain ⟨u, hu, he⟩ := step_effect s
  rw [h] at hu
  cases hu
  exact he

/-! ### Which failure a step raises -/

/-- The failure an instruction raises when `sp` has the value `k` (R142, R143). -/
def execFailure (k : Nat) : Instr → Option Cause
  | .call _ => if k = 16 then some .stackOverflow else none
  | .ret => if k = 0 then some .stackUnderflow else none
  | .halt | .move _ _ | .or _ _ | .and _ _ | .xor _ _ | .add _ _ | .sub _ _ => none

/-- An ALU instruction raises no failure (R110). -/
theorem execFailure_of_aluDest {k : Nat} {i : Instr} {d : Reg × Bool} (h : aluDest i = some d) : execFailure k i = none := by
  cases i with
  | halt | ret | call => cases h
  | move | or | and | xor | add | sub => rfl

/-- Above 0x0FFE a step raises OutOfBounds. -/
theorem stepFailure_of_out_of_bounds {s : State} (hb : 0x0FFE < s.pc.toNat) : stepFailure s = some .outOfBounds := if_pos hb

/-- A rejected word raises UnsupportedInstruction. -/
theorem stepFailure_of_reject {s : State} {e : DecodeReject} (hb : s.pc.toNat ≤ 0x0FFE)
    (hd : decodeWord s.fetchWord = .error e) : stepFailure s = some .unsupportedInstruction :=
  (if_neg (Nat.not_lt.mpr hb)).trans (if_pos (wellFormedWord_of_error hd))

/-- A decoded word raises the failure of its instruction. -/
theorem stepFailure_of_decode {s : State} {i : Instr} (hb : s.pc.toNat ≤ 0x0FFE) (hd : decodeWord s.fetchWord = .ok i) :
    stepFailure s = execFailure s.sp.val i := by
  have hwf : ¬ wellFormedWord s.fetchWord = false := by simp [wellFormedWord_of_decodeWord hd]
  simp only [stepFailure, if_neg (Nat.not_lt.mpr hb), if_neg hwf, word_and_F000_iff hd, word_eq_ret_iff hd]
  cases i <;> simp [execFailure]

end Sys2Proof.Machine

/-! PROOFS. The statements about the state: frames of instructions and steps, `run_state`, the fault record, reset
(spec/10_state.md). -/

namespace Sys2Proof.Machine

/-! ### Reset -/

/-- Settles O38: the reset state, field by field. -/
theorem resetMeetsInvariant : Obligations.ResetMeetsInvariant where
  mem := reset_wf
  pc := by decide
  stack := fun _ hi => absurd hi (Nat.not_lt_zero _)
  clear := fun _ => rfl
  told := fun h => by cases h

/-- Settles O41: the values of `hostReset`, and a core that is IDLE executes nothing. -/
theorem resetSetsEveryValue : Obligations.ResetSetsEveryValue := by
  intro s
  have hidle : (hostReset s).runState ≠ .running := by simp
  exact ⟨hostReset s, rfl, fun x => reset_reg x, rfl, rfl, rfl, rfl, rfl, rfl, rfl, fun _ => rfl, step_of_not_running hidle⟩

/-! ### Frames of an instruction -/

/-- Settles O6, by the effects of the instructions that are not ALU. -/
theorem controlFlowFrame : Obligations.ControlFlowFrame := by
  intro s t i halu h
  cases execEffect_of_next h with
  | halts => exact ⟨fun _ => rfl, fun _ => rfl, rfl, .inl rfl, fun _ _ => rfl, fun _ => ⟨rfl, rfl⟩⟩
  | returns k hk => exact ⟨fun _ => rfl, fun _ => rfl, rfl, .inl rfl, fun _ _ => rfl, nofun⟩
  | underflows hsp => exact ⟨fun _ => rfl, fun _ => rfl, rfl, .inr rfl, fun _ _ => rfl, nofun⟩
  | calls n k hk =>
    refine ⟨fun _ => rfl, fun _ => rfl, rfl, .inl rfl, fun j hj => ?_, nofun⟩
    have hkj : k.val ≠ j.val := fun e => hj rfl (by omega)
    exact Vector.getElem_set_ne k.isLt j.isLt hkj
  | overflows n hsp => exact ⟨fun _ => rfl, fun _ => rfl, rfl, .inr rfl, fun _ _ => rfl, nofun⟩
  | writes i x v hi => rw [halu] at hi; cases hi
  | writesFlagged i x v b hi => rw [halu] at hi; cases hi

/-- What an ALU instruction can do: one register write, and for ADD and SUB the flag byte after it. -/
theorem execEffect_alu {i : Instr} {x : Reg} {flagged : Bool} {s t : State} (hi : aluDest i = some (x, flagged))
    (h : ExecEffect s i t) :
    (flagged = false ∧ ∃ v, t = s.setReg x v) ∨ (flagged = true ∧ ∃ v b, t = s.setRegThenFlag x v (flagByte b)) := by
  cases h with
  | halts | returns | underflows | calls | overflows => cases hi
  | writes i y v hy => rw [hy] at hi; cases hi; exact .inl ⟨rfl, v, rfl⟩
  | writesFlagged i y v b hy => rw [hy] at hi; cases hi; exact .inr ⟨rfl, v, b, rfl⟩

/-- Settles O15: the flag register is written last, with a flag byte, by ADD and SUB alone. -/
theorem flagIsWholeByte : Obligations.FlagIsWholeByte := by
  intro i x flagged s t hi h
  obtain ⟨rfl, v, rfl⟩ | ⟨rfl, v, b, rfl⟩ := execEffect_alu hi (execEffect_of_next h)
  · refine ⟨nofun, fun _ hx => ?_⟩
    rw [reg_setReg, if_neg (Ne.symm hx)]
  · refine ⟨fun _ => ?_, nofun⟩
    have hflag : (s.setRegThenFlag x v (flagByte b)).reg 15 = flagByte b := by
      rw [reg_setRegThenFlag, Config.flagReg, if_pos rfl]
    rw [hflag]
    cases b
    · exact .inl rfl
    · exact .inr rfl

/-! ### Frames of a step -/

/-- The effect of a step whose word decodes. -/
theorem execEffect_of_step {s t : State} {i : Instr} (hr : s.runState = .running) (hb : s.pc.toNat ≤ 0x0FFE)
    (hd : decodeWord s.fetchWord = .ok i) (h : step s = .next t) : ExecEffect s.advance i t :=
  execEffect_of_next ((step_of_decode hr hb hd).symm.trans h)

/-- Settles O26, by the effect of the fetched instruction on the advanced state. -/
theorem pcAfterEachInstruction : Obligations.PcAfterEachInstruction := by
  intro s t i hr hb hd h
  cases execEffect_of_step hr hb hd h with
  | halts => exact ⟨fun _ => rfl, nofun, nofun⟩
  | returns k hk =>
    refine ⟨fun hi => by simp [aluDest] at hi, nofun, fun _ j hj => ?_⟩
    obtain rfl : k = j := Fin.ext (by rw [advance_sp] at hk; omega)
    rfl
  | underflows hsp =>
    exact ⟨fun hi => by simp [aluDest] at hi, nofun, fun _ j hj => by rw [advance_sp] at hsp; omega⟩
  | calls n k hk =>
    refine ⟨fun hi => by simp [aluDest] at hi, fun m hm _ => ?_, nofun⟩
    cases hm
    refine ⟨rfl, fun j hj => ?_⟩
    obtain rfl : k = j := Fin.ext (hk.symm.trans hj.symm)
    exact Vector.getElem_set_self _
  | overflows n hsp =>
    exact ⟨fun hi => by simp [aluDest] at hi, fun m _ hlt => by rw [advance_sp] at hsp; omega, nofun⟩
  | writes i x v hi | writesFlagged i x v b hi =>
    refine ⟨fun _ => rfl, fun n hn => ?_, fun hn => ?_⟩
    · subst hn; cases hi
    · subst hn; cases hi

/-- An instruction that changes a register is an ALU instruction, and the register its destination or the flag register. -/
theorem ExecEffect.aluDest_of_reg_ne {s t : State} {i : Instr} {z : Reg} (h : ExecEffect s i t) (hz : t.reg z ≠ s.reg z) :
    ∃ x flagged, aluDest i = some (x, flagged) ∧ (z = x ∨ flagged = true ∧ z = 15) := by
  cases h with
  | halts | returns | underflows | calls | overflows => exact absurd rfl hz
  | writes i x v hi =>
    refine ⟨x, false, hi, .inl ?_⟩
    by_contra hne
    exact hz (by rw [reg_setReg, if_neg hne])
  | writesFlagged i x v b hi =>
    refine ⟨x, true, hi, ?_⟩
    by_contra hne
    obtain ⟨hx, hf⟩ := not_or.mp hne
    have hf : z ≠ Config.flagReg := fun e => hf ⟨rfl, e⟩
    exact hz (by rw [reg_setRegThenFlag, if_neg hf, if_neg hx])

/-- Settles O30: of the effects of a step only an executed instruction changes a register. -/
theorem registersWrittenOnlyByAlu : Obligations.RegistersWrittenOnlyByAlu := by
  intro s t z h hz
  cases stepEffect_of_next h with
  | stays | outOfBounds | unsupported => exact absurd rfl hz
  | executes i hr hb hd he =>
    obtain ⟨x, flagged, hi, hx⟩ := he.aluDest_of_reg_ne (by rwa [advance_reg])
    exact ⟨hr, i, x, flagged, hd, hi, hx⟩

/-- Settles O31, by the effects of a step: of the instructions only CALL writes an entry, and only CALL and RETURN move `sp`. -/
theorem callStackMovesOnlyByCallAndReturn : Obligations.CallStackMovesOnlyByCallAndReturn := by
  intro s t h
  cases stepEffect_of_next h with
  | stays | outOfBounds | unsupported => exact ⟨fun hne => absurd rfl hne, fun hne => absurd rfl hne⟩
  | executes i hr hb hd he =>
    cases he with
    | halts | underflows | overflows | writes | writesFlagged =>
      exact ⟨fun hne => absurd rfl hne, fun hne => absurd rfl hne⟩
    | returns k hk =>
      rw [advance_sp] at hk
      exact ⟨fun hne => absurd rfl hne, fun _ => .inr ⟨hd, by simp [hk]⟩⟩
    | calls n k hk =>
      rw [advance_sp] at hk
      exact ⟨fun _ => ⟨n, k, hd, hk.symm, rfl⟩, fun _ => .inl ⟨n, hd, by simp [hk]⟩⟩

/-! ### `run_state` and the fault record -/

/-- How `run_state` and the fault record follow from an instruction: a failure makes the core FAULTED, HALT makes it HALTED,
everything else leaves both alone. -/
theorem ExecEffect.runState_fault {s t : State} {i : Instr} (h : ExecEffect s i t) :
    (execFailure s.sp.val i ≠ none → t.runState = .faulted) ∧
    (execFailure s.sp.val i = none →
      t.fault = s.fault ∧ t.runState = if i = .halt then .halted else s.runState) := by
  cases h with
  | halts => exact ⟨fun hf => absurd rfl hf, fun _ => ⟨rfl, rfl⟩⟩
  | returns k hk =>
    have hf : execFailure s.sp.val .ret = none := if_neg (by omega)
    exact ⟨fun hne => absurd hf hne, fun _ => ⟨rfl, rfl⟩⟩
  | underflows hsp =>
    have hf : execFailure s.sp.val .ret ≠ none := by simp [execFailure, hsp]
    exact ⟨fun _ => rfl, fun hn => absurd hn hf⟩
  | calls n k hk =>
    have hf : execFailure s.sp.val (.call n) = none := if_neg (by omega)
    exact ⟨fun hne => absurd hf hne, fun _ => ⟨rfl, rfl⟩⟩
  | overflows n hsp =>
    have hf : execFailure s.sp.val (.call n) ≠ none := by simp [execFailure, hsp]
    exact ⟨fun _ => rfl, fun hn => absurd hn hf⟩
  | writes i x v hi | writesFlagged i x v b hi =>
    have hnh : i ≠ .halt := fun e => by subst e; cases hi
    exact ⟨fun hf => absurd (execFailure_of_aluDest hi) hf, fun _ => ⟨rfl, (if_neg hnh).symm⟩⟩

/-- The same of a step of a running core, with the conditions of R140 in the order of R148 as the failure. -/
theorem StepEffect.runState_fault {s t : State} (h : StepEffect s t) (hr : s.runState = .running) :
    (stepFailure s ≠ none → t.runState = .faulted) ∧
    (stepFailure s = none →
      t.fault = s.fault ∧ t.runState = if s.fetchWord = 0x0000 then .halted else .running) := by
  cases h with
  | stays hn => exact absurd hr hn
  | outOfBounds _ hb => exact ⟨fun _ => rfl, fun hf => by rw [stepFailure_of_out_of_bounds hb] at hf; cases hf⟩
  | unsupported e _ hb hd => exact ⟨fun _ => rfl, fun hf => by rw [stepFailure_of_reject hb hd] at hf; cases hf⟩
  | executes i _ hb hd he =>
    simpa only [stepFailure_of_decode hb hd, word_eq_halt_iff hd, advance_sp, advance_fault, advance_runState, hr]
      using he.runState_fault

/-- No host move but reset writes the fault record, and none but reset and start the run state (R126). -/
theorem hostAct_fault_runState {s t : State} {m : HostMove} (h : hostAct m s = .next t) (hm : m ≠ .reset) :
    t.fault = s.fault ∧ (m ≠ .start → t.runState = s.runState) := by
  cases m with
  | reset => exact absurd rfl hm
  | start =>
    simp only [hostAct, hostStart] at h
    split at h <;> cases h <;> exact ⟨rfl, fun hs => absurd rfl hs⟩
  | presetReg x v =>
    simp only [hostAct, hostPreset] at h
    split at h <;> cases h
    exact ⟨rfl, fun _ => rfl⟩
  | loadByte a v =>
    simp only [hostAct, hostLoadByte] at h
    split_ifs at h
    cases h
    exact ⟨rfl, fun _ => rfl⟩
  | loadProgram base ws =>
    simp only [hostAct, hostLoadProgram] at h
    split_ifs at h
    cases h
    exact ⟨rfl, fun _ => rfl⟩

/-- Start makes an IDLE core RUNNING and leaves every other run state. -/
theorem hostStart_runState (s : State) : (hostStart s).runState = if s.runState = .idle then .running else s.runState := by
  unfold hostStart
  split <;> rfl

/-- Settles O36: a step by its effects, a host move by its kind. -/
theorem runStateTransitions : Obligations.RunStateTransitions := by
  refine ⟨fun s t h => ⟨fun hn => ?_, fun hr => ?_⟩, fun s t m h => ⟨?_, ?_, fun hm hs => ?_⟩, rfl, rfl, rfl, rfl⟩
  · rw [step_of_not_running hn] at h
    cases h
    rfl
  · obtain ⟨hfail, hnone⟩ := (stepEffect_of_next h).runState_fault hr
    exact ⟨hfail, fun hf hw => (hnone hf).2.trans (if_pos hw), fun hf hw => (hnone hf).2.trans (if_neg hw)⟩
  · rintro rfl
    cases h
    rfl
  · rintro rfl
    cases h
    exact hostStart_runState s
  · exact (hostAct_fault_runState h hm).2 hs

/-- Settles O37: the record changes only where a step raises a failure, and the invariant keeps it clear outside FAULTED. -/
theorem faultRecordWrittenOnlyByFailure : Obligations.FaultRecordWrittenOnlyByFailure := by
  refine ⟨fun s t h hne => ?_, fun s t m h hm => (hostAct_fault_runState h hm).1, fun s hinv hrs => ?_⟩
  · by_cases hr : s.runState = .running
    · exact ⟨hr, fun hf => hne (((stepEffect_of_next h).runState_fault hr).2 hf).1⟩
    · rw [step_of_not_running hr] at h
      cases h
      exact absurd rfl hne
  · rw [hinv.clear hrs]
    rfl

/-! ### The invariant -/

/-- Raising a failure keeps the invariant if the record tells the failure. -/
theorem State.Inv.raise {s : State} {c : Cause} {w a : Word} (h : s.Inv) (hf : FaultExplained (s.raise c w a)) :
    (s.raise c w a).Inv where
  mem := h.mem
  pc := h.pc
  stack := h.stack
  clear := fun hn => absurd rfl hn
  told := fun _ => hf

/-- The advance of a fetch address within bounds does not wrap. -/
theorem add_two_toNat {a : Word} (ha : a.toNat ≤ 0x0FFE) : (a + 2).toNat = a.toNat + 2 := by bv_omega

/-- The advance of a running core within bounds keeps the invariant. -/
theorem State.Inv.advance {s : State} (h : s.Inv) (hb : s.pc.toNat ≤ 0x0FFE) (hr : s.runState = .running) :
    s.advance.Inv where
  mem := h.mem
  pc := by rw [advance_pc, add_two_toNat hb]; omega
  stack := h.stack
  clear := h.clear
  told := fun hf => by rw [advance_runState, hr] at hf; cases hf

/-- A CALL's target is below 0x1000. -/
theorem callTarget_lt (n : Addr12) : (callTarget n).toNat < 0x1000 := by
  have := n.isLt
  simp [callTarget]
  omega

/-- What the invariant says of an entry in use: the address after a CALL within bounds (R91). -/
def IsReturnAddress (v : Word) : Prop := 2 ≤ v.toNat ∧ v.toNat ≤ 0x1000

/-- The entries in use after a push are those before it and the one pushed. -/
theorem isReturnAddress_push {s : State} {k : Fin 16} {v : Word} (hk : s.sp.val = k.val)
    (hs : ∀ i : Fin 16, i.val < s.sp.val → IsReturnAddress s.stack[i]) (hv : IsReturnAddress v) (i : Fin 16)
    (hi : i.val < k.val + 1) : IsReturnAddress (s.stack.set k.val v)[i] := by
  by_cases hki : k = i
  · subst hki
    simpa using hv
  · have hne : k.val ≠ i.val := fun e => hki (Fin.ext e)
    have hset : (s.stack.set k.val v)[i] = s.stack[i] := Vector.getElem_set_ne k.isLt i.isLt hne
    rw [hset]
    exact hs i (by omega)

/-- The execution of an instruction fetched at `a` (so `pc` is `a + 2`) keeps the invariant. -/
theorem ExecEffect.inv {s t : State} {i : Instr} {a : Word} (h : ExecEffect s i t) (hinv : s.Inv)
    (hr : s.runState = .running) (hpc : s.pc = a + 2) (ha : a.toNat ≤ 0x0FFE) : t.Inv := by
  have hfetch : s.fetchAddr = a := by rw [State.fetchAddr, hpc, BitVec.add_sub_cancel]
  have hpcNat : s.pc.toNat = a.toNat + 2 := by rw [hpc, add_two_toNat ha]
  have hclear : s.fault = FaultRecord.cleared := hinv.clear (by rw [hr]; decide)
  have htold : ∀ {P : Prop}, s.runState = .faulted → P := fun hf => by rw [hr] at hf; cases hf
  cases h with
  | halts => exact ⟨hinv.mem, hinv.pc, hinv.stack, fun _ => hclear, fun hf => by cases hf⟩
  | returns k hk =>
    refine ⟨hinv.mem, (hinv.stack k (by omega)).2, fun j hj => hinv.stack j ?_, fun _ => hclear, htold⟩
    rw [Fin.val_castSucc] at hj
    omega
  | underflows hsp => rw [hfetch]; exact hinv.raise ⟨rfl, hsp, ha, hpc⟩
  | calls n k hk =>
    refine ⟨hinv.mem, (callTarget_lt n).le, fun j hj => ?_, fun _ => hclear, htold⟩
    exact isReturnAddress_push hk hinv.stack ⟨by omega, hinv.pc⟩ j hj
  | overflows n hsp => rw [hfetch]; exact hinv.raise ⟨⟨n, rfl⟩, hsp, ha, hpc⟩
  | writes | writesFlagged => exact ⟨hinv.mem, hinv.pc, hinv.stack, fun _ => hclear, htold⟩

/-- Settles O39, by the effects of a step. -/
theorem stepKeepsInvariant : Obligations.StepKeepsInvariant := by
  intro s t hinv h
  cases stepEffect_of_next h with
  | stays => exact hinv
  | outOfBounds hr hb => exact hinv.raise ⟨rfl, rfl, hb⟩
  | unsupported e hr hb hd =>
    rw [State.raiseUnsupported, fetchAddr_advance]
    exact (hinv.advance hb hr).raise ⟨wellFormedWord_of_error hd, hb, advance_pc s⟩
  | executes i hr hb hd he => exact he.inv (hinv.advance hb hr) hr (advance_pc s) hb

/-! ### Dead call-stack entries -/

/-- The register reads agree. -/
theorem SameLive.reg {s s' : State} (h : SameLive s s') (x : Reg) : s.reg x = s'.reg x := by
  rw [State.reg, State.reg, h.r]

/-- The fetched words agree. -/
theorem SameLive.fetchWord {s s' : State} (h : SameLive s s') : s.fetchWord = s'.fetchWord := by
  simp only [State.fetchWord, State.memByte, h.mem, h.pc]

theorem SameLive.setPc {s s' : State} (h : SameLive s s') (w : Word) : SameLive (s.setPc w) (s'.setPc w) :=
  { h with pc := rfl }

theorem SameLive.setRunState {s s' : State} (h : SameLive s s') (k : RunState) :
    SameLive (s.setRunState k) (s'.setRunState k) :=
  { h with runState := rfl }

theorem SameLive.setReg {s s' : State} (h : SameLive s s') (x : Reg) (v : Byte) : SameLive (s.setReg x v) (s'.setReg x v) :=
  { h with r := congrArg (·.set x.val v x.isLt) h.r }

theorem SameLive.raise {s s' : State} (h : SameLive s s') (c : Cause) (w a : Word) :
    SameLive (s.raise c w a) (s'.raise c w a) :=
  { h with runState := rfl, fault := rfl }

theorem SameLive.advance {s s' : State} (h : SameLive s s') : SameLive s.advance s'.advance := by
  rw [State.advance, State.advance, h.pc]
  exact h.setPc _

/-- A push writes the same entry in both. -/
theorem SameLive.push {s s' : State} (h : SameLive s s') (k : Fin 16) (hk : s.sp.val = k.val) (v : Word) :
    SameLive { s with stack := s.stack.set k.val v, sp := k.succ } { s' with stack := s'.stack.set k.val v, sp := k.succ } := by
  refine { h with sp := rfl, live := fun i hi => ?_ }
  rw [Fin.val_succ] at hi
  by_cases hki : k.val = i.val
  · simp [hki]
  · have := h.live i (by omega)
    simpa [Vector.getElem_set, hki] using this

/-- A pop leaves both stacks and lowers `sp` in both. -/
theorem SameLive.pop {s s' : State} (h : SameLive s s') (k : Fin 16) (hk : s.sp.val = k.val + 1) :
    SameLive { s with sp := k.castSucc } { s' with sp := k.castSucc } :=
  { h with sp := rfl, live := fun i hi => h.live i (by rw [Fin.val_castSucc] at hi; omega) }

/-- Two outcomes are next states that differ in dead entries only. -/
def SameLiveNext (o o' : Result) : Prop := ∃ t t', o = .next t ∧ o' = .next t' ∧ SameLive t t'

/-- MOVE, OR, AND, XOR read registers alone. -/
theorem SameLive.execPlain {s s' : State} (h : SameLive s s') (f : Byte → Byte → Byte) (x y : Reg) :
    SameLiveNext (execPlain f x y s) (execPlain f x y s') := by
  simp only [execPlain_eq, h.reg]
  exact ⟨_, _, rfl, rfl, h.setReg ..⟩

/-- ADD and SUB read registers alone. -/
theorem SameLive.execFlagged {s s' : State} (h : SameLive s s') (f flag : Byte → Byte → Byte) (x y : Reg) :
    SameLiveNext (execFlagged f flag x y s) (execFlagged f flag x y s') := by
  simp only [execFlagged_eq, h.reg]
  exact ⟨_, _, rfl, rfl, (h.setReg ..).setReg ..⟩

/-- RETURN reads the entry below `sp` alone. -/
theorem SameLive.execReturn {s s' : State} (h : SameLive s s') : SameLiveNext (exec .ret s) (exec .ret s') := by
  have hsp : s.sp.val = s'.sp.val := congrArg Fin.val h.sp
  obtain h0 | ⟨k, hk⟩ := sp_zero_or_succ s
  · rw [exec_ret_of_zero h0, exec_ret_of_zero (hsp ▸ h0), State.fetchAddr, State.fetchAddr, h.pc]
    exact ⟨_, _, rfl, rfl, h.raise ..⟩
  · rw [exec_ret_of_pos hk, exec_ret_of_pos (hsp ▸ hk), h.live k (by omega)]
    exact ⟨_, _, rfl, rfl, (h.pop k hk).setPc _⟩

/-- CALL reads no entry. -/
theorem SameLive.execCall {s s' : State} (h : SameLive s s') (n : Addr12) :
    SameLiveNext (exec (.call n) s) (exec (.call n) s') := by
  have hsp : s.sp.val = s'.sp.val := congrArg Fin.val h.sp
  obtain ⟨k, hk⟩ | hfull := sp_entry_or_full s
  · rw [exec_call_of_lt n hk, exec_call_of_lt n (hsp ▸ hk), h.pc]
    exact ⟨_, _, rfl, rfl, (h.push k hk _).setPc _⟩
  · rw [exec_call_of_full n hfull, exec_call_of_full n (hsp ▸ hfull), State.fetchAddr, State.fetchAddr, h.pc]
    exact ⟨_, _, rfl, rfl, h.raise ..⟩

/-- No instruction observes a dead entry. -/
theorem SameLive.exec {s s' : State} (h : SameLive s s') (i : Instr) : SameLiveNext (exec i s) (exec i s') := by
  cases i with
  | halt => exact ⟨_, _, rfl, rfl, h.setRunState .halted⟩
  | ret => exact h.execReturn
  | call n => exact h.execCall n
  | move x y => exact h.execPlain (fun _ q => q) x y
  | or x y => exact h.execPlain (· ||| ·) x y
  | and x y => exact h.execPlain (· &&& ·) x y
  | xor x y => exact h.execPlain (· ^^^ ·) x y
  | add x y => exact h.execFlagged addResult addFlag x y
  | sub x y => exact h.execFlagged subResult subFlag x y

/-- No step observes a dead entry. -/
theorem SameLive.step {s s' : State} (h : SameLive s s') : SameLiveNext (step s) (step s') := by
  by_cases hr : s.runState = .running
  · have hr' : s'.runState = .running := h.runState ▸ hr
    rcases Nat.lt_or_ge 0x0FFE s.pc.toNat with hb | hb
    · rw [step_of_out_of_bounds hr hb, step_of_out_of_bounds hr' (h.pc ▸ hb), State.raiseOutOfBounds,
        State.raiseOutOfBounds, h.pc]
      exact ⟨_, _, rfl, rfl, h.raise ..⟩
    · have hb' : s'.pc.toNat ≤ 0x0FFE := h.pc ▸ hb
      cases hd : decodeWord s.fetchWord with
      | ok i =>
        rw [step_of_decode hr hb hd, step_of_decode hr' hb' (h.fetchWord ▸ hd)]
        exact h.advance.exec i
      | error e =>
        rw [step_of_reject hr hb hd, step_of_reject hr' hb' (h.fetchWord ▸ hd), State.raiseUnsupported,
          State.raiseUnsupported, fetchAddr_advance, fetchAddr_advance, h.fetchWord, h.pc]
        exact ⟨_, _, rfl, rfl, h.advance.raise ..⟩
  · rw [step_of_not_running hr, step_of_not_running (h.runState ▸ hr)]
    exact ⟨_, _, rfl, rfl, h⟩

/-- No run observes a dead entry: induction on the number of steps. -/
theorem SameLive.runSteps {s s' : State} (h : SameLive s s') (n : Nat) : SameLiveNext (runSteps n s) (runSteps n s') := by
  induction n generalizing s s' with
  | zero => exact ⟨s, s', rfl, rfl, h⟩
  | succ n ih =>
    obtain ⟨t, t', ht, ht', hlive⟩ := h.step
    rw [runSteps_succ n ht, runSteps_succ n ht']
    exact ih hlive

/-- The status outputs agree. -/
theorem SameLive.hostStatus {s s' : State} (h : SameLive s s') : hostStatus s = hostStatus s' := by
  simp only [Machine.hostStatus, h.runState, h.fault]

/-- The register reads of the host agree. -/
theorem SameLive.hostReadReg {s s' : State} (h : SameLive s s') (x : Reg) : hostReadReg x s = hostReadReg x s' := by
  simp only [Machine.hostReadReg, h.runState, h.reg]

/-- RETURN leaves every entry as it was (D16). -/
theorem stack_of_exec_ret {s t : State} (h : exec .ret s = .next t) : t.stack = s.stack := by
  cases execEffect_of_next h with
  | returns | underflows => rfl
  | writes i x v hi | writesFlagged i x v b hi => cases hi

/-- Settles O32: `SameLive` is kept along both runs, and RETURN writes no entry. -/
theorem deadEntriesAreUnobservable : Obligations.DeadEntriesAreUnobservable := by
  refine ⟨fun n s s' h => ?_, fun s t h => stack_of_exec_ret h⟩
  obtain ⟨t, t', ht, ht', hlive⟩ := h.runSteps n
  exact ⟨t, t', ht, ht', hlive, hlive.hostStatus, hlive.hostReadReg⟩

end Sys2Proof.Machine

/-! PROOFS. The statements about memory: the fetch, the core's single access to it, and the loaded program
(spec/20_memory.md). -/

namespace Sys2Proof.Machine

/-! ### The core never writes memory -/

/-- No instruction writes memory (R37). -/
theorem ExecEffect.mem_eq {s t : State} {i : Instr} (h : ExecEffect s i t) : t.mem = s.mem := by
  cases h with
  | halts | returns | underflows | calls | overflows | writes | writesFlagged => rfl

/-- No step writes memory (R37). -/
theorem StepEffect.mem_eq {s t : State} (h : StepEffect s t) : t.mem = s.mem := by
  cases h with
  | stays | outOfBounds | unsupported => rfl
  | executes i hr hb hd he => exact he.mem_eq

/-- No run writes memory: induction on the number of steps. -/
theorem mem_eq_of_runSteps {n : Nat} {s t : State} (h : runSteps n s = .next t) : t.mem = s.mem := by
  induction n generalizing s with
  | zero => cases h; rfl
  | succ n ih =>
    obtain ⟨u, hu, he⟩ := step_effect s
    rw [runSteps_succ n hu] at h
    exact (ih h).trans he.mem_eq

/-- A byte reads the same where the memories read the same. -/
theorem memByte_congr {s t : State} {a : Nat} (h : t.mem.read? a = s.mem.read? a) : t.memByte a = s.memByte a :=
  congrArg (·.getD (Config.unloadedByte a)) h

/-- Settles O27, by the memory of every effect of a step. -/
theorem coreNeverWritesMemory : Obligations.CoreNeverWritesMemory := by
  intro n s t h
  have hmem := mem_eq_of_runSteps h
  exact ⟨hmem, fun a => memByte_congr (congrArg (·.read? a) hmem)⟩

/-! ### The fetch is the only access -/

/-- An instruction's behaviour reads no memory: under another memory it does the same. -/
theorem exec_with_mem {i : Instr} {s t : State} (m : Memory) (h : exec i s = .next t) :
    exec i { s with mem := m } = .next { t with mem := m } := by
  cases i with
  | halt | move | or | and | xor | add | sub => cases h; rfl
  | ret =>
    obtain h0 | ⟨k, hk⟩ := sp_zero_or_succ s
    · rw [exec_ret_of_zero h0] at h
      cases h
      exact exec_ret_of_zero (s := { s with mem := m }) h0
    · rw [exec_ret_of_pos hk] at h
      cases h
      exact exec_ret_of_pos (s := { s with mem := m }) hk
  | call n =>
    obtain ⟨k, hk⟩ | hfull := sp_entry_or_full s
    · rw [exec_call_of_lt n hk] at h
      cases h
      exact exec_call_of_lt (s := { s with mem := m }) n hk
    · rw [exec_call_of_full n hfull] at h
      cases h
      exact exec_call_of_full (s := { s with mem := m }) n hfull

/-- Settles O28: the fetched word is that of the two bytes, and nothing after the fetch reads memory. -/
theorem stepReadsOnlyTheFetchedBytes : Obligations.StepReadsOnlyTheFetchedBytes := by
  intro s t m h hbytes
  have hfetch : ({ s with mem := m } : State).fetchWord = s.fetchWord :=
    congrArg₂ wordOfBytes (hbytes _ (.inl rfl)) (hbytes _ (.inr rfl))
  cases stepEffect_of_next h with
  | stays hr => exact step_of_not_running (s := { s with mem := m }) hr
  | outOfBounds hr hb => exact step_of_out_of_bounds (s := { s with mem := m }) hr hb
  | unsupported e hr hb hd =>
    rw [step_of_reject (s := { s with mem := m }) hr hb (hfetch.symm ▸ hd), hfetch]
    rfl
  | executes i hr hb hd he =>
    rw [step_of_decode hr hb hd] at h
    rw [step_of_decode (s := { s with mem := m }) hr hb (hfetch.symm ▸ hd)]
    exact exec_with_mem m h

/-! ### A loaded program -/

/-- Loading words leaves every address outside their range alone. -/
theorem read?_writeWords_of_outside {m : Memory} {base a : Nat} {ws : List Word}
    (ha : a < base ∨ base + 2 * ws.length ≤ a) : Memory.read? (Memory.writeWords m base ws) a = Memory.read? m a := by
  induction ws generalizing m base with
  | nil => rfl
  | cons w ws ih =>
    rw [List.length_cons] at ha
    rw [Memory.writeWords, ih (by omega), read?_writeWord, if_neg (by omega), if_neg (by omega)]

/-- The `j`-th loaded word stands at `base + 2 j`, high byte at the lower address (R31, R32): the loads after it stay above. -/
theorem read?_writeWords {m : Memory} {base j : Nat} {ws : List Word} (hj : j < ws.length) :
    Memory.read? (Memory.writeWords m base ws) (base + 2 * j) = some (highByte ws[j]) ∧
      Memory.read? (Memory.writeWords m base ws) (base + 2 * j + 1) = some (lowByte ws[j]) := by
  induction ws generalizing m base j with
  | nil => exact absurd hj (Nat.not_lt_zero j)
  | cons w ws ih =>
    rw [Memory.writeWords]
    cases j with
    | zero =>
      rw [read?_writeWords_of_outside (by omega), read?_writeWords_of_outside (by omega)]
      simp [read?_writeWord]
    | succ j =>
      have hbase : base + 2 * (j + 1) = base + 2 + 2 * j := by omega
      rw [hbase]
      exact ih (Nat.lt_of_succ_lt_succ hj)

/-- A fetch yields the word whose two bytes stand at `pc` and `pc + 1`. -/
theorem fetchWord_of_read? {s : State} {w : Word} (hhi : s.mem.read? s.pc.toNat = some (highByte w))
    (hlo : s.mem.read? (s.pc.toNat + 1) = some (lowByte w)) : s.fetchWord = w := by
  rw [State.fetchWord, State.memByte, State.memByte, hhi, hlo]
  exact wordOfBytes_high_low w

/-- The load of a program that lies in memory, while IDLE (R131). -/
theorem hostLoadProgram_of_idle {s : State} {base : Nat} {ws : List Word} (hr : s.runState = .idle)
    (hb : base + 2 * ws.length ≤ 0x1000) :
    hostLoadProgram base ws s = .next { s with mem := s.mem.writeWords base ws } :=
  (if_neg (not_not_intro hr)).trans (if_neg (Nat.not_lt.mpr hb))

/-- Settles O44, by the reads of the loaded memory inside and outside the loaded range. -/
theorem loadedProgramIsFetched : Obligations.LoadedProgramIsFetched := by
  intro s base ws hr hb
  refine ⟨_, hostLoadProgram_of_idle hr hb, rfl, fun j hj => ?_, fun a ha => memByte_congr (read?_writeWords_of_outside ha)⟩
  have hpc : (BitVec.ofNat 16 (base + 2 * j)).toNat = base + 2 * j := by
    rw [BitVec.toNat_ofNat]
    omega
  obtain ⟨hhi, hlo⟩ := read?_writeWords (m := s.mem) (base := base) hj
  apply fetchWord_of_read?
  · rwa [hpc]
  · rwa [hpc]

/-! ### The byte order of a fetch -/

/-- Settles O22: the number of the fetched word, and the rule's example. -/
theorem fetchIsBigEndian : Obligations.FetchIsBigEndian := by
  refine ⟨fun s => wordOfBytes_toNat _ _, fun s hpc hhi hlo => ?_⟩
  have hword : s.fetchWord = wordOfBytes 0x21 0x00 := by
    rw [State.fetchWord, hpc]
    exact congrArg₂ wordOfBytes hhi hlo
  rw [hword]
  decide

end Sys2Proof.Machine

/-! PROOFS. The statements about the encoding: the round trip of encoder and decoder, the opcode table's columns, and the count of
the words that are no instruction (spec/30_encoding.md). -/

namespace Sys2Proof

/-! ### The encoder's formulas -/

/-- The word of a CALL as a number (R64). -/
theorem encode_call_toNat (n : Addr12) : (encode (.call n)).toNat = 0x2000 + n.toNat := by
  have := n.isLt
  simp [encode]
  omega

/-- The word of an ALU instruction as a number (R64). -/
theorem encodeAlu_toNat {k : Nat} (hk : k < 16) (x y : Reg) :
    (encodeAlu k x y).toNat = 0x8000 + 256 * x.val + 16 * y.val + k := by
  simp [encodeAlu]
  omega

/-! ### Decoding inverts encoding -/

/-- The fields of a CALL word. -/
theorem splitWord_encode_call (n : Addr12) :
    (splitWord (encode (.call n))).family = 0x2 ∧ (splitWord (encode (.call n))).addr12 = n := by
  have hw := (splitWord_toNat (encode (.call n))).2
  rw [encode_call_toNat] at hw
  constructor <;> bv_omega

/-- The fields of an ALU word. -/
theorem splitWord_encodeAlu {k : Nat} (hk : k < 16) (x y : Reg) :
    (splitWord (encodeAlu k x y)).family = 0x8 ∧ (splitWord (encodeAlu k x y)).op = BitVec.ofNat 4 k ∧
    regOfField (splitWord (encodeAlu k x y)).x = x ∧ regOfField (splitWord (encodeAlu k x y)).y = y := by
  have hw := (splitWord_toNat (encodeAlu k x y)).1
  rw [encodeAlu_toNat hk] at hw
  refine ⟨by bv_omega, by bv_omega, Fin.ext ?_, Fin.ext ?_⟩ <;> simp only [regOfField, BitVec.val_toFin] <;> bv_omega

/-- The ALU group decodes an ALU word by its `op` alone, with the registers it was encoded from (it does not
read `addr12`). -/
theorem decodeWord_encodeAlu {k : Nat} (hk : k < 16) (x y : Reg) :
    decodeWord (encodeAlu k x y) = decodeAlu ⟨0x8, .ofFin x, .ofFin y, .ofNat 4 k, 0⟩ := by
  obtain ⟨hf, ho, hx, hy⟩ := splitWord_encodeAlu hk x y
  rw [decodeWord_of_family_8 hf, decodeAlu, ho, hx, hy]
  rfl

/-- Decoding inverts encoding on every instruction (R64). -/
theorem decodeWord_encode (i : Instr) : decodeWord (encode i) = .ok i := by
  cases i with
  | halt | ret => rfl
  | call n =>
    obtain ⟨hf, ha⟩ := splitWord_encode_call n
    rw [decodeWord_of_family_2 hf, ha]
  | move x y | or x y | and x y | xor x y | add x y | sub x y => exact decodeWord_encodeAlu (by decide) x y

/-- A word decodes to an instruction exactly when it is that instruction's word (R64). -/
theorem decodeWord_eq_ok_iff {w : Word} {i : Instr} : decodeWord w = .ok i ↔ encode i = w :=
  ⟨encode_decodeWord, fun h => h ▸ decodeWord_encode i⟩

/-- Settles O16: both directions of the round trip, then the two bytes by way of the word they make. -/
theorem decodeInvertsEncode : Obligations.DecodeInvertsEncode := by
  refine ⟨⟨rfl, rfl, encode_call_toNat, fun x y => ?_⟩, decodeWord_encode, fun i rest => ?_, fun w i => encode_decodeWord,
    fun i => ⟨highByte (encode i), lowByte (encode i), rfl, ?_⟩⟩
  · exact ⟨encodeAlu_toNat (by decide) x y, encodeAlu_toNat (by decide) x y, encodeAlu_toNat (by decide) x y,
      encodeAlu_toNat (by decide) x y, encodeAlu_toNat (by decide) x y, encodeAlu_toNat (by decide) x y⟩
  · calc decodeBytes (encodeBytes i ++ rest)
        = (decodeWord (wordOfBytes (highByte (encode i)) (lowByte (encode i)))).map fun j => (j, rest) := decodeBytes_pair ..
      _ = .ok (i, rest) := by rw [wordOfBytes_high_low, decodeWord_encode]; rfl
  · rw [← wordOfBytes_toNat, wordOfBytes_high_low]

/-! ### Which words the groups decode -/

/-- Family 0x0 is the control group (R57). -/
theorem decodeWord_of_family_0 {w : Word} (h : (splitWord w).family = 0x0) : decodeWord w = decodeControl w := if_pos h

/-- Every family but 0x0, 0x2 and 0x8 is unsupported (R56). -/
theorem decodeWord_of_other_family {w : Word} (h0 : (splitWord w).family ≠ 0x0) (h2 : (splitWord w).family ≠ 0x2)
    (h8 : (splitWord w).family ≠ 0x8) : decodeWord w = .error (.unsupportedFamily (splitWord w).family) :=
  (if_neg h0).trans ((if_neg h2).trans (if_neg h8))

/-- The control group decodes two words and no other (R57). -/
theorem decodeControl_isOk_iff (w : Word) : (∃ i, decodeControl w = .ok i) ↔ w = 0x0000 ∨ w = 0x00EE := by
  unfold decodeControl
  split_ifs with hh hr
  · exact iff_of_true ⟨_, rfl⟩ (.inl hh)
  · exact iff_of_true ⟨_, rfl⟩ (.inr hr)
  · exact iff_of_false nofun (not_or.mpr ⟨hh, hr⟩)

/-- The ALU group decodes `op` 0x0 to 0x5 and no other (R58). -/
theorem decodeAlu_isOk_iff (f : Fields) : (∃ i, decodeAlu f = .ok i) ↔ f.op.toNat < 6 := by
  unfold decodeAlu
  dsimp only
  split_ifs with h0 h1 h2 h3 h4 h5
  case neg => exact iff_of_false nofun (by bv_omega)
  all_goals exact iff_of_true ⟨_, rfl⟩ (by bv_omega)

end Sys2Proof

namespace Sys2Proof.Machine

/-! ### Words that decode -/

/-- A word decodes when the decoder answers an instruction. -/
theorem decodes_eq_true_iff {w : Word} : decodes w = true ↔ ∃ i, decodeWord w = .ok i := by
  unfold decodes
  cases decodeWord w <;> simp

/-- A word does not decode when the decoder rejects it. -/
theorem decodes_eq_false_iff {w : Word} : decodes w = false ↔ ∃ e, decodeWord w = .error e := by
  unfold decodes
  cases decodeWord w <;> simp

/-! ### The opcode table -/

/-- A row of the opcode table matches a word exactly when the word decodes to an instruction of the row's mnemonic (R55). -/
theorem matchesWord_iff {w : Word} {row : OpcodeRow} (hrow : row ∈ opcodeTable) :
    row.matchesWord w = true ↔ ∃ i, decodeWord w = .ok i ∧ i.mnemonic = row.mnemonic := by
  have key : ∀ i, decodeWord w = .ok i → (row.matchesWord w = true ↔ i.mnemonic = row.mnemonic) := fun i hi => by
    rw [← encode_decodeWord hi, rowMatches i row hrow, beq_iff_eq, eq_comm]
  constructor
  · intro h
    obtain ⟨i, hi⟩ := decodeWord_of_matchesWord hrow h
    exact ⟨i, hi, (key i hi).mp h⟩
  · rintro ⟨i, hi, hm⟩
    exact (key i hi).mpr hm

/-- Exactly one row of the opcode table has an instruction's mnemonic. -/
theorem countP_mnemonic (i : Instr) : opcodeTable.countP (·.mnemonic == i.mnemonic) = 1 := by
  cases i <;> rfl

/-- Exactly one row matches a word that decodes. -/
theorem countP_matchesWord_of_decodeWord {w : Word} {i : Instr} (h : decodeWord w = .ok i) :
    opcodeTable.countP (·.matchesWord w) = 1 := by
  rw [← countP_mnemonic i, ← encode_decodeWord h]
  exact List.countP_congr fun row hrow => by rw [rowMatches i row hrow]

/-- No row matches a word that is rejected. -/
theorem countP_matchesWord_of_error {w : Word} {e : DecodeReject} (h : decodeWord w = .error e) :
    opcodeTable.countP (·.matchesWord w) = 0 := by
  rw [List.countP_eq_zero]
  exact List.any_eq_false.mp (wellFormedWord_of_error h)

/-- Settles O17: a row's match and mask are its mnemonic's, and the rows that match are counted by what the word decodes to. -/
theorem decoderIsTheOpcodeTable : Obligations.DecoderIsTheOpcodeTable := by
  refine ⟨fun w row hrow => ?_, fun w => ?_, fun w => ?_⟩
  · rw [← matchesWord_iff hrow, OpcodeRow.matchesWord, beq_iff_eq]
  · cases h : decodeWord w with
    | ok i => exact (countP_matchesWord_of_decodeWord h).le
    | error e => rw [countP_matchesWord_of_error h]; exact Nat.zero_le 1
  · rw [decodes_eq_false_iff]
    cases h : decodeWord w with
    | ok i => simp [countP_matchesWord_of_decodeWord h]
    | error e => simp [countP_matchesWord_of_error h]

/-! ### Sample words -/

/-- Settles O20: the words are their instructions' encodings, and the neighbours are rejected. -/
theorem sampleWordsDecode : Obligations.SampleWordsDecode := by
  unfold Obligations.SampleWordsDecode
  -- `List.Forall` lets `decide` go through the listed words, where `∀ w ∈` has it go through all words
  rw [← List.forall_iff_forall_mem]
  simp only [decodeWord_eq_ok_iff]
  decide

/-! ### Counting the words -/

/-- A family has 4096 words: one for each `addr12` (R51). -/
theorem card_family (f : BitVec 4) : (Finset.univ.filter fun w : Word => (splitWord w).family = f).card = 4096 := by
  have hbij : (Finset.univ.filter fun w : Word => (splitWord w).family = f).card = (Finset.univ : Finset Addr12).card := by
    refine Finset.card_nbij' (fun w => (splitWord w).addr12) (fun n => f ++ n) (fun _ _ => Finset.mem_coe.mpr (Finset.mem_univ _))
      (fun n _ => ?_) (fun w hw => ?_) (fun n _ => BitVec.extractLsb'_append_eq_right)
    · exact Finset.mem_coe.mpr (Finset.mem_filter_univ _ |>.mpr BitVec.extractLsb'_append_eq_left)
    · obtain rfl : (splitWord w).family = f := by simpa using hw
      exact BitVec.extractLsb'_append_extractLsb'
  rw [hbij, Finset.card_univ, ← FinEnum.card_eq_fintypeCard, FinEnum.card_bitVec]
  rfl

/-- Words are counted family by family. -/
theorem card_eq_sum_families (p : Word → Prop) [DecidablePred p] :
    (Finset.univ.filter p).card =
      ∑ f : BitVec 4, (Finset.univ.filter fun w : Word => p w ∧ (splitWord w).family = f).card := by
  rw [Finset.card_eq_sum_card_fiberwise (f := fun w => (splitWord w).family) (t := Finset.univ)
    fun _ _ => Finset.mem_coe.mpr (Finset.mem_univ _)]
  simp only [Finset.filter_filter]

/-- One word decodes to an instruction: its encoding (R64). -/
theorem card_words_of_instr (i : Instr) : (Finset.univ.filter fun w : Word => decodeWord w = .ok i).card = 1 := by
  simp only [decodeWord_eq_ok_iff, Finset.filter_eq, Finset.mem_univ, if_true, Finset.card_singleton]

/-- The words of a family that decode. -/
abbrev definedWords (f : BitVec 4) : Finset Word :=
  Finset.univ.filter fun w : Word => decodes w = true ∧ (splitWord w).family = f

/-- Family 0x0 has two defined words (R57). -/
theorem card_definedWords_0 : (definedWords 0x0).card = 2 := by
  have hset : definedWords 0x0 = {0x0000, 0x00EE} := by
    ext w
    simp only [Finset.mem_filter_univ, Finset.mem_insert, Finset.mem_singleton, decodes_eq_true_iff]
    constructor
    · rintro ⟨hd, hf⟩
      rwa [decodeWord_of_family_0 hf, decodeControl_isOk_iff] at hd
    · rintro (rfl | rfl) <;> exact ⟨⟨_, rfl⟩, rfl⟩
  rw [hset]
  rfl

/-- Family 0x2 is defined at every address. -/
theorem card_definedWords_2 : (definedWords 0x2).card = 4096 := by
  rw [← card_family 0x2]
  refine congrArg Finset.card (Finset.filter_congr fun w _ => and_iff_right_of_imp fun hf => ?_)
  exact decodes_eq_true_iff.mpr ⟨_, decodeWord_of_family_2 hf⟩

/-- Family 0x8 has 1536 defined words: `op` 0x0 to 0x5 with every register pair (R58). -/
theorem card_definedWords_8 : (definedWords 0x8).card = 1536 := by
  have hset : definedWords 0x8 = Finset.univ.image fun a : Fin 6 × Reg × Reg => encodeAlu a.1.val a.2.1 a.2.2 := by
    ext w
    simp only [Finset.mem_filter_univ, Finset.mem_image, Finset.mem_univ, true_and, decodes_eq_true_iff]
    constructor
    · rintro ⟨hd, hf⟩
      rw [decodeWord_of_family_8 hf, decodeAlu_isOk_iff] at hd
      exact ⟨(⟨_, hd⟩, _, _), encodeAlu_splitWord hf rfl⟩
    · rintro ⟨⟨k, x, y⟩, rfl⟩
      have hk : k.val < 16 := by omega
      refine ⟨?_, (splitWord_encodeAlu hk x y).1⟩
      rw [decodeWord_encodeAlu hk, decodeAlu_isOk_iff]
      bv_omega
  rw [hset, Finset.card_image_of_injective]
  · simp
  · rintro ⟨k, x, y⟩ ⟨k', x', y'⟩ h
    have h := congrArg BitVec.toNat h
    simp only [encodeAlu_toNat (show k.val < 16 by omega), encodeAlu_toNat (show k'.val < 16 by omega)] at h
    simp only [Prod.mk.injEq, Fin.ext_iff]
    omega

/-- How many words of a family decode (R59). -/
def definedInFamily (f : BitVec 4) : Nat := if f = 0x0 then 2 else if f = 0x2 then 4096 else if f = 0x8 then 1536 else 0

/-- The counts hold of all sixteen families. -/
theorem card_definedWords (f : BitVec 4) : (definedWords f).card = definedInFamily f := by
  unfold definedInFamily
  split_ifs with h0 h2 h8
  · exact h0 ▸ card_definedWords_0
  · exact h2 ▸ card_definedWords_2
  · exact h8 ▸ card_definedWords_8
  · rw [Finset.card_eq_zero, Finset.filter_eq_empty_iff]
    rintro w - ⟨hd, rfl⟩
    obtain ⟨i, hi⟩ := decodes_eq_true_iff.mp hd
    rw [decodeWord_of_other_family h0 h2 h8] at hi
    cases hi

/-- The words of a family that are not defined are the rest of its 4096. -/
theorem card_unsupported_family (f : BitVec 4) :
    (Finset.univ.filter fun w : Word => decodes w = false ∧ (splitWord w).family = f).card = 4096 - definedInFamily f := by
  have h := Finset.card_filter_add_card_filter_not (s := Finset.univ.filter fun w : Word => (splitWord w).family = f)
    fun w => decodes w = true
  simp only [Finset.filter_filter, Bool.not_eq_true, and_comm (a := (splitWord _).family = f)] at h
  rw [card_definedWords, card_family] at h
  omega

/-- Settles O19: the failure by the step of a rejected word, the counts family by family. -/
theorem unsupportedWordsFailAndAreCounted : Obligations.UnsupportedWordsFailAndAreCounted := by
  refine ⟨fun s hr hb hw => ?_, card_words_of_instr .halt, card_words_of_instr .ret, ?_, ?_, fun f => ?_⟩
  · cases hd : decodeWord s.fetchWord with
    | ok i => rw [wellFormedWord_of_decodeWord hd] at hw; cases hw
    | error e =>
      rw [step_of_reject hr hb hd, State.raiseUnsupported, fetchAddr_advance]
      rfl
  · rw [card_eq_sum_families]
    simp only [card_definedWords]
    decide
  · rw [card_eq_sum_families]
    simp only [card_unsupported_family]
    decide
  · rw [card_unsupported_family, definedInFamily]
    split_ifs <;> rfl

/-! ### No step stops the model -/

/-- Settles O25, by what a step and what an instruction can do. -/
theorem everyStepAnswersANextState : Obligations.EveryStepAnswersANextState :=
  ⟨fun s => (step_effect s).imp fun _ => And.left, fun i s => (exec_effect i s).imp fun _ => And.left⟩

end Sys2Proof.Machine

/-! PROOFS. The statements about the instruction cycle: the step against its pseudocode, the bounds check, runs of steps
(spec/40_instruction_cycle.md). -/

namespace Sys2Proof

/-! ### The fields of a word by division -/

/-- The fields the pseudocode divides out of a word are the decoder's (R51, R74). -/
theorem splitWord_toNat_div (w : Word) :
    (splitWord w).family.toNat = w.toNat / 4096 ∧ (splitWord w).x.toNat = w.toNat / 256 % 16 ∧
    (splitWord w).y.toNat = w.toNat / 16 % 16 ∧ (splitWord w).op.toNat = w.toNat % 16 ∧
    (splitWord w).addr12.toNat = w.toNat % 4096 := by
  obtain ⟨hnibbles, haddr⟩ := splitWord_toNat w
  have hw := w.isLt
  refine ⟨?_, ?_, ?_, ?_, ?_⟩ <;> omega

end Sys2Proof

namespace Sys2Proof.Machine

/-! ### The step is its pseudocode: reading an updated state as numbers -/

/-- A register read as a number. -/
@[simp] theorem plain_r (s : State) (x : Reg) : s.plain.r x.val = (s.reg x).toNat := dif_pos x.isLt

/-- A call-stack entry read as a number. -/
@[simp] theorem plain_stack (s : State) (k : Fin 16) : s.plain.stack k.val = s.stack[k].toNat := dif_pos k.isLt

/-- Sixteen values read as numbers, of which one is written: the pseudocode's write to what they read as before. -/
theorem dite_lt_eq_put {f g : Fin 16 → Nat} {k : Fin 16} {v : Nat} (h : ∀ j, g j = if j = k then v else f j) :
    (fun i => if hi : i < 16 then g ⟨i, hi⟩ else 0) = put (fun i => if hi : i < 16 then f ⟨i, hi⟩ else 0) k.val v := by
  funext i
  by_cases hi : i < 16
  · simp only [put, hi, dif_pos, h, Fin.ext_iff]
  · have hk : i ≠ k.val := by omega
    simp only [put, hi, hk, dif_neg, if_neg, not_false_eq_true]

/-- A written register, read as numbers, is the pseudocode's write. -/
theorem plain_setReg (s : State) (x : Reg) (v : Byte) :
    (s.setReg x v).plain = { s.plain with r := put s.plain.r x.val v.toNat } := by
  have h : ∀ z, ((s.setReg x v).reg z).toNat = if z = x then v.toNat else (s.reg z).toNat := fun z => by
    rw [reg_setReg, apply_ite BitVec.toNat]
  exact congrArg (fun f => { s.plain with r := f }) (dite_lt_eq_put h)

/-- A written register and then the flag, read as numbers. -/
theorem plain_setRegThenFlag (s : State) (x : Reg) (v f : Byte) :
    (s.setRegThenFlag x v f).plain = { s.plain with r := put (put s.plain.r x.val v.toNat) 0xF f.toNat } := by
  rw [State.setRegThenFlag, plain_setReg, plain_setReg]
  rfl

/-- A written call-stack entry, read as numbers, is the pseudocode's write. -/
theorem plain_setStack (s : State) (k : Fin 16) (v : Word) :
    ({ s with stack := s.stack.set k.val v } : State).plain = { s.plain with stack := put s.plain.stack k.val v.toNat } := by
  have h : ∀ j, (s.stack.set k.val v)[j].toNat = if j = k then v.toNat else s.stack[j].toNat := fun j => by
    simp only [Fin.getElem_fin, Vector.getElem_set, apply_ite BitVec.toNat, Fin.ext_iff, eq_comm]
  exact congrArg (fun f => { s.plain with stack := f }) (dite_lt_eq_put h)

/-- The advance within bounds, read as numbers, does not wrap (R73). -/
theorem plain_advance {s : State} (hb : s.pc.toNat ≤ 0x0FFE) : s.advance.plain = { s.plain with pc := s.plain.pc + 2 } :=
  congrArg (fun n => { s.plain with pc := n }) (add_two_toNat hb)

/-- A raised failure, read as numbers, is the pseudocode's (R145). -/
theorem plain_raise (s : State) (c : Cause) (w a : Word) :
    (s.raise c w a).plain = s.plain.raise (causeCode c).toNat w.toNat a.toNat := rfl

/-! ### The step is its pseudocode: behaviours and dispatch -/

/-- The behaviour of an instruction in the pseudocode of R70, of the fetched `word` and its fetch address `a`. -/
def plainExec (word a : Nat) (p : PlainState) : Instr → PlainState
  | .halt => { p with runState := .halted }
  | .ret => if p.sp = 0 then p.raise 3 word a else { p with sp := p.sp - 1, pc := p.stack (p.sp - 1) }
  | .call n =>
    if p.sp = 16 then p.raise 2 word a
    else { p with stack := put p.stack p.sp p.pc, sp := p.sp + 1, pc := n.toNat }
  | .move x y => { p with r := put p.r x (p.r y) }
  | .or x y => { p with r := put p.r x (p.r x ||| p.r y) }
  | .and x y => { p with r := put p.r x (p.r x &&& p.r y) }
  | .xor x y => { p with r := put p.r x (p.r x ^^^ p.r y) }
  | .add x y =>
    { p with r := put (put p.r x ((p.r x + p.r y) % 256)) 0xF (if p.r x + p.r y > 255 then 1 else 0) }
  | .sub x y =>
    { p with r := put (put p.r x ((p.r x + 256 - p.r y) % 256)) 0xF (if p.r x ≥ p.r y then 1 else 0) }

/-- What the pseudocode does with the decoder's answer (R75). -/
def plainDispatch (word a : Nat) (p : PlainState) : Except DecodeReject Instr → PlainState
  | .ok i => plainExec word a p i
  | .error _ => p.raise 1 word a

/-- The pseudocode's step of a running core within bounds decodes the fetched word as the decoder does. -/
theorem plainStep_of_in_bounds {mem : Nat → Nat} {p : PlainState} {w : Word} (hr : p.runState = .running)
    (hb : p.pc ≤ 0x0FFE) (hw : 256 * mem p.pc + mem (p.pc + 1) = w.toNat) :
    plainStep mem p = plainDispatch w.toNat p.pc { p with pc := p.pc + 2 } (decodeWord w) := by
  obtain ⟨hfam, hx, hy, hop, haddr⟩ := splitWord_toNat_div w
  have hin : ¬ p.pc > 0x0FFE := Nat.not_lt.mpr hb
  rw [plainStep, if_neg (not_not_intro hr)]
  -- the pseudocode's tree of conditions, over the fields of `w`
  simp only [hin, if_false, hw, ← hfam, ← hx, ← hy, ← hop, ← haddr]
  -- the decoder's tree is the same, with the dispatch at its leaves
  simp only [decodeWord, decodeControl, decodeAlu, apply_ite (plainDispatch _ _ _), BitVec.toNat_eq]
  rfl

/-- A CALL's target is its address (R53). -/
theorem callTarget_toNat (n : Addr12) : (callTarget n).toNat = n.toNat :=
  BitVec.toNat_setWidth_of_le (by decide)

/-- An instruction's behaviour, read as numbers, is the pseudocode's. -/
theorem exec_plain (i : Instr) (s : State) :
    ∃ t, exec i s = .next t ∧ t.plain = plainExec (encode i).toNat s.fetchAddr.toNat s.plain i := by
  cases i with
  | halt => exact ⟨_, rfl, rfl⟩
  | ret =>
    obtain h0 | ⟨k, hk⟩ := sp_zero_or_succ s
    · exact ⟨_, exec_ret_of_zero h0, (if_pos h0).symm⟩
    · refine ⟨_, exec_ret_of_pos hk, ?_⟩
      have hsp : s.plain.sp = k.val + 1 := hk
      rw [plainExec, hsp, if_neg (Nat.succ_ne_zero _), Nat.add_sub_cancel, plain_stack]
      rfl
  | call n =>
    obtain ⟨k, hk⟩ | hfull := sp_entry_or_full s
    · refine ⟨_, exec_call_of_lt n hk, ?_⟩
      have hsp : s.plain.sp = k.val := hk
      rw [plainExec, hsp, if_neg k.isLt.ne, ← callTarget_toNat]
      exact congrArg (fun p => { p with sp := k.val + 1, pc := (callTarget n).toNat }) (plain_setStack s k s.pc)
    · exact ⟨_, exec_call_of_full n hfull, (if_pos hfull).symm⟩
  | move x y | or x y | and x y | xor x y => exact ⟨_, rfl, by simp [plain_setReg, plainExec]⟩
  | add x y => exact ⟨_, rfl, by simp [plain_setRegThenFlag, plainExec, addResult_toNat, addFlag, flagByte_toNat]⟩
  | sub x y => exact ⟨_, rfl, by simp [plain_setRegThenFlag, plainExec, subResult_toNat, subFlag, flagByte_toNat]⟩

/-- Settles O33: a core that is not RUNNING and a fetch out of bounds are the pseudocode's first two cases; within bounds the
decoder selects what the pseudocode selects, and each behaviour read as numbers is the pseudocode's. -/
theorem stepIsThePseudocode : Obligations.StepIsThePseudocode := by
  intro s
  by_cases hr : s.runState = .running
  · rcases Nat.lt_or_ge 0x0FFE s.pc.toNat with hb | hb
    · exact ⟨_, step_of_out_of_bounds hr hb, ((if_neg (not_not_intro hr)).trans (if_pos hb)).symm⟩
    · rw [plainStep_of_in_bounds (w := s.fetchWord) hr hb (wordOfBytes_toNat ..).symm]
      cases hd : decodeWord s.fetchWord with
      | ok i =>
        obtain ⟨t, ht, hplain⟩ := exec_plain i s.advance
        rw [encode_decodeWord hd, fetchAddr_advance, plain_advance hb] at hplain
        exact ⟨t, (step_of_decode hr hb hd).trans ht, hplain⟩
      | error e =>
        refine ⟨_, step_of_reject hr hb hd, ?_⟩
        rw [State.raiseUnsupported, plain_raise, fetchAddr_advance, plain_advance hb]
        rfl
  · exact ⟨s, step_of_not_running hr, (if_pos hr).symm⟩

/-! ### The bounds check -/

/-- No instruction raises OutOfBounds: what it leaves as the cause is another failure's or the cause before it (R144). -/
theorem ExecEffect.cause_ne_outOfBounds {s t : State} {i : Instr} (h : ExecEffect s i t)
    (hs : s.fault.cause ≠ .outOfBounds) : t.fault.cause ≠ .outOfBounds := by
  cases h with
  | underflows | overflows => nofun
  | halts | returns | calls | writes | writesFlagged => exact hs

/-- Settles O23: of the effects of a step only the failed bounds check leaves the cause OutOfBounds. -/
theorem outOfBoundsExactlyAboveFFE : Obligations.OutOfBoundsExactlyAboveFFE := by
  refine ⟨fun s hr hb => step_of_out_of_bounds hr hb, fun s t hr hc h => ?_⟩
  cases stepEffect_of_next h with
  | stays hn => exact absurd hr hn
  | outOfBounds _ hb => exact iff_of_true rfl hb
  | unsupported e _ hb hd => exact iff_of_false nofun (Nat.not_lt.mpr hb)
  | executes i _ hb hd he =>
    have hadv : s.advance.fault.cause ≠ .outOfBounds := by rw [advance_fault, hc]; nofun
    exact iff_of_false (he.cause_ne_outOfBounds hadv) (Nat.not_lt.mpr hb)

/-! ### Runs of steps -/

/-- A run of `m + n` steps is one of `m` and then one of `n`: induction on the first `m` steps. -/
theorem runSteps_add {m : Nat} {s t : State} (n : Nat) (h : runSteps m s = .next t) :
    runSteps (m + n) s = runSteps n t := by
  induction m generalizing s with
  | zero => cases h; rw [Nat.zero_add]
  | succ m ih =>
    obtain ⟨u, hu, -⟩ := step_effect s
    rw [runSteps_succ m hu] at h
    rw [Nat.succ_add, runSteps_succ _ hu, ih h]

/-- A run from a state that is not RUNNING stays there (R77): induction on the number of steps. -/
theorem runSteps_of_not_running (n : Nat) {s : State} (h : s.runState ≠ .running) : runSteps n s = .next s := by
  induction n with
  | zero => rfl
  | succ n ih => rw [runSteps_succ n (step_of_not_running h), ih]

/-- Settles O29: both clauses by induction on the number of steps. -/
theorem groupingOfStepsChangesNothing : Obligations.GroupingOfStepsChangesNothing :=
  ⟨fun _ n _ _ h => runSteps_add n h, fun n _ h => runSteps_of_not_running n h⟩

/-! ### The fetched instruction -/

/-- The decoder on the two bytes a fetch reads is the decoder on the word they make (R72). -/
theorem decodeBytes_fetched (s : State) :
    decodeBytes [s.memByte s.pc.toNat, s.memByte (s.pc.toNat + 1)] = (decodeWord s.fetchWord).map fun i => (i, []) :=
  decodeBytes_pair ..

/-- Settles O21: the fetched bytes decode as the fetched word does. -/
theorem stepRunsTheDecodedInstruction : Obligations.StepRunsTheDecodedInstruction := by
  intro s hr hb
  rw [decodeBytes_fetched]
  cases hd : decodeWord s.fetchWord with
  | ok i =>
    refine ⟨fun j hj => ?_, nofun⟩
    cases hj
    exact step_of_decode hr hb hd
  | error e =>
    refine ⟨nofun, fun _ _ => ?_⟩
    rw [step_of_reject hr hb hd, State.raiseUnsupported, fetchAddr_advance]
    rfl

/-- Settles O24: none of the three run states is RUNNING. -/
theorem stepDoesNothingUnlessRunning : Obligations.StepDoesNothingUnlessRunning := by
  rintro s (h | h | h) <;> exact step_of_not_running (by rw [h]; nofun)

end Sys2Proof.Machine

/-! PROOFS. The statements about control flow: what HALT, RETURN and CALL do as behaviours and as steps, and how CALLs and RETURNs
nest (spec/41_control_flow.md). -/

namespace Sys2Proof.Machine

/-! ### Steps of the control-flow words -/

/-- A CALL's word as R92 writes it is the encoder's (R64): `addr12` has no bit of 0x2000. -/
theorem callWord_eq_encode (n : Addr12) : callWord n = encode (.call n) := by
  apply BitVec.eq_of_toNat_eq
  rw [encode_call_toNat, callWord, BitVec.toNat_or, BitVec.toNat_setWidth_of_le (by decide)]
  exact (Nat.two_pow_add_eq_or_of_lt n.isLt 2).symm

/-- A step within bounds that fetches an instruction's word executes the instruction. -/
theorem step_of_fetch {s : State} {i : Instr} (hr : s.runState = .running) (hb : s.pc.toNat ≤ 0x0FFE)
    (hw : s.fetchWord = encode i) : step s = exec i s.advance :=
  step_of_decode hr hb (decodeWord_eq_ok_iff.mpr hw.symm)

/-- The step of a RETURN with an entry to pop. -/
theorem step_ret_of_pos {s : State} {k : Fin 16} (hr : s.runState = .running) (hb : s.pc.toNat ≤ 0x0FFE)
    (hw : s.fetchWord = 0x00EE) (hk : s.sp.val = k.val + 1) :
    step s = .next { s with sp := k.castSucc, pc := s.stack[k] } :=
  (step_of_fetch (i := .ret) hr hb hw).trans (exec_ret_of_pos (s := s.advance) hk)

/-- The step of a RETURN on an empty stack. -/
theorem step_ret_of_zero {s : State} (hr : s.runState = .running) (hb : s.pc.toNat ≤ 0x0FFE)
    (hw : s.fetchWord = 0x00EE) (h0 : s.sp.val = 0) :
    step s = .next (s.advance.raise .stackUnderflow 0x00EE s.pc) := by
  rw [step_of_fetch (i := .ret) hr hb hw, exec_ret_of_zero (s := s.advance) h0, fetchAddr_advance]
  rfl

/-- The step of a CALL with room for an entry pushes the address after it. -/
theorem step_call_of_lt {s : State} {n : Addr12} {k : Fin 16} (hr : s.runState = .running) (hb : s.pc.toNat ≤ 0x0FFE)
    (hw : s.fetchWord = callWord n) (hk : s.sp.val = k.val) :
    step s = .next { s with stack := s.stack.set k.val (s.pc + 2), sp := k.succ, pc := callTarget n } :=
  (step_of_fetch hr hb (hw.trans (callWord_eq_encode n))).trans (exec_call_of_lt (s := s.advance) n hk)

/-- The step of a CALL on a full stack. -/
theorem step_call_of_full {s : State} {n : Addr12} (hr : s.runState = .running) (hb : s.pc.toNat ≤ 0x0FFE)
    (hw : s.fetchWord = callWord n) (hfull : s.sp.val = 16) :
    step s = .next (s.advance.raise .stackOverflow (callWord n) s.pc) := by
  rw [step_of_fetch hr hb (hw.trans (callWord_eq_encode n)), exec_call_of_full (s := s.advance) n hfull,
    fetchAddr_advance, callWord_eq_encode]

/-! ### HALT -/

/-- Only reset changes the run state of a core that is not IDLE (R125, R126, R129, R131). -/
theorem hostAct_runState_of_not_idle {s t : State} {m : HostMove} (h : hostAct m s = .next t) (hm : m ≠ .reset)
    (hidle : s.runState ≠ .idle) : t.runState = s.runState := by
  by_cases hs : m = .start
  · subst hs
    cases h
    rw [hostStart_runState, if_neg hidle]
  · exact (hostAct_fault_runState h hm).2 hs

/-- Settles O1: HALT's behaviour after the advance, and a core that is HALTED. -/
theorem haltStopsTheCore : Obligations.HaltStopsTheCore := by
  refine ⟨rfl, fun s => rfl, fun s hr hb hw => step_of_fetch (i := .halt) hr hb hw, fun s hh => ⟨?_, fun x => ?_, ?_⟩⟩
  · exact step_of_not_running (by rw [hh]; nofun)
  · exact if_neg (by rw [hh]; nofun)
  · intro m t h hm
    rw [hostAct_runState_of_not_idle h hm (by rw [hh]; nofun), hh]

/-! ### RETURN -/

/-- Settles O2: the pop and the underflow, each as behaviour and as step; a popped entry out of bounds fails at the next fetch. -/
theorem returnPopsTheCallStack : Obligations.ReturnPopsTheCallStack := by
  refine ⟨rfl, fun s k hk => exec_ret_of_pos hk, fun s h0 => exec_ret_of_zero h0, fun s hr hb hw => ⟨?_, fun k hk => ⟨?_, ?_⟩⟩⟩
  · exact step_ret_of_zero hr hb hw
  · exact step_ret_of_pos hr hb hw hk
  · exact fun hout => step_of_out_of_bounds (s := { s with sp := k.castSucc, pc := s.stack[k] }) hr hout

/-! ### CALL -/

/-- The word fetched depends on `pc` and memory alone. -/
theorem fetchWord_congr {s t : State} (hpc : t.pc = s.pc) (hmem : t.mem = s.mem) : t.fetchWord = s.fetchWord := by
  simp only [State.fetchWord, State.memByte, hpc, hmem]

/-- A run of `n + 1` steps is one of `n` and then a step. -/
theorem runSteps_succ_last {n : Nat} {s t : State} (h : runSteps n s = .next t) : runSteps (n + 1) s = step t := by
  obtain ⟨u, hu, -⟩ := step_effect t
  rw [runSteps_add 1 h, runSteps_succ 0 hu, runSteps_zero, hu]

/-- `t` is what `j` executions of a CALL to its own address make of `s` with an empty stack: `j` entries, each the address after
the CALL, and the CALL fetched next again (R92). -/
structure SelfCalled (s : State) (j : Nat) (t : State) : Prop where
  run : runSteps j s = .next t
  sp : t.sp.val = j
  runState : t.runState = .running
  pc : t.pc = s.pc
  pushed : ∀ i : Fin 16, i.val < j → t.stack[i] = s.pc + 2

/-- The CALL that called itself stands where the next fetch reads. -/
theorem SelfCalled.fetchWord {s t : State} {j : Nat} (h : SelfCalled s j t) : t.fetchWord = s.fetchWord :=
  fetchWord_congr h.pc (mem_eq_of_runSteps h.run)

/-- One more execution, while the stack has room. -/
theorem SelfCalled.call {s t : State} {n : Addr12} {j : Fin 16} (h : SelfCalled s j.val t) (hb : s.pc.toNat ≤ 0x0FFE)
    (hw : s.fetchWord = callWord n) (hpc : s.pc = callTarget n) : ∃ u, SelfCalled s (j.val + 1) u := by
  have hstep := step_call_of_lt h.runState (h.pc ▸ hb) (h.fetchWord.trans hw) h.sp
  refine ⟨_, (runSteps_succ_last h.run).trans hstep, Fin.val_succ j, h.runState, hpc.symm, fun i hi => ?_⟩
  rcases Nat.lt_succ_iff_lt_or_eq.mp hi with hlt | heq
  · exact (Vector.getElem_set_ne j.isLt i.isLt hlt.ne').trans (h.pushed i hlt)
  · obtain rfl : i = j := Fin.ext heq
    exact (Vector.getElem_set_self _).trans (by rw [h.pc])

/-- A CALL to its own address succeeds sixteen times: induction on the number of executions. -/
theorem exists_selfCalled {s : State} {n : Addr12} (hr : s.runState = .running) (hb : s.pc.toNat ≤ 0x0FFE)
    (hw : s.fetchWord = callWord n) (hpc : s.pc = callTarget n) (h0 : s.sp.val = 0) {j : Nat} (hj : j ≤ 16) :
    ∃ t, SelfCalled s j t := by
  induction j with
  | zero => exact ⟨s, rfl, h0, hr, rfl, fun i hi => absurd hi (Nat.not_lt_zero _)⟩
  | succ j ih =>
    obtain ⟨t, ht⟩ := ih (Nat.le_of_succ_le hj)
    exact SelfCalled.call (j := ⟨j, hj⟩) ht hb hw hpc

/-- Settles O3: the push and the overflow, each as behaviour and as step; a target out of bounds fails at the next fetch; the
CALL to its own address fills the stack, and the full stack fails the next execution. -/
theorem callPushesAndJumps : Obligations.CallPushesAndJumps := by
  refine ⟨fun n => ?_, fun s n k hk => exec_call_of_lt n hk, fun s n hfull => ?_, fun s n hr hb hw => ⟨?_, fun k hk => ?_⟩, ?_⟩
  · rw [callWord_eq_encode, decodeWord_encode]
  · rw [callWord_eq_encode]
    exact exec_call_of_full n hfull
  · exact step_call_of_full hr hb hw
  · refine ⟨_, step_call_of_lt hr hb hw hk, rfl, fun hout => step_of_out_of_bounds hr ?_⟩
    rwa [callTarget_toNat]
  · intro s n hr hpc hn hw h0
    have hb : s.pc.toNat ≤ 0x0FFE := by rw [hpc]; exact (callTarget_toNat n).trans_le hn
    obtain ⟨t, ht⟩ := exists_selfCalled hr hb hw hpc h0 le_rfl
    refine ⟨t, ht.run, ht.sp, ht.runState, ht.pc, fun i => ht.pushed i i.isLt, ?_⟩
    rw [runSteps_succ_last ht.run, step_call_of_full ht.runState (ht.pc ▸ hb) (ht.fetchWord.trans hw) ht.sp, ← ht.pc]
    rfl

/-! ### CALL and RETURN in pairs -/

/-- A step keeps the entries in use: only CALL writes one, and that one was not in use. -/
theorem stack_of_step {s t : State} {k : Fin 16} (h : step s = .next t) (hk : k.val < s.sp.val) : t.stack[k] = s.stack[k] := by
  by_contra hne
  obtain ⟨hpush, -⟩ := callStackMovesOnlyByCallAndReturn s t h
  obtain ⟨n, j, -, hj, hstack⟩ := hpush fun e => hne (by rw [e])
  have hjk : j.val ≠ k.val := by omega
  exact hne (by rw [hstack]; exact Vector.getElem_set_ne j.isLt k.isLt hjk)

/-- A run that stays above an entry until its last step keeps the entry: induction on the number of steps. -/
theorem stack_of_runSteps {m : Nat} {s t : State} {k : Fin 16} (h : runSteps m s = .next t)
    (habove : ∀ j v, j < m → runSteps j s = .next v → k.val < v.sp.val) : t.stack[k] = s.stack[k] := by
  induction m generalizing s with
  | zero => cases h; rfl
  | succ m ih =>
    obtain ⟨u, hu, -⟩ := step_effect s
    rw [runSteps_succ m hu] at h
    have hrest : t.stack[k] = u.stack[k] :=
      ih h fun j v hj hv => habove (j + 1) v (Nat.succ_lt_succ hj) ((runSteps_succ j hu).trans hv)
    exact hrest.trans (stack_of_step hu (habove 0 s m.succ_pos rfl))

/-- After a CALL, what it pushed. -/
theorem stack_of_step_call {s t : State} {n : Addr12} {k : Fin 16} (hr : s.runState = .running) (hb : s.pc.toNat ≤ 0x0FFE)
    (hw : s.fetchWord = callWord n) (hk : s.sp.val = k.val) (h : step s = .next t) : t.stack[k] = s.pc + 2 := by
  rw [step_call_of_lt hr hb hw hk] at h
  cases h
  exact Vector.getElem_set_self _

/-- Settles O4: the entry the CALL pushed is the one the RETURN pops, at once or after steps that keep it. -/
theorem returnUndoesItsCall : Obligations.ReturnUndoesItsCall := by
  constructor
  · intro s n hr hb hw hsp hn hhi hlo
    obtain ⟨k, hk⟩ : ∃ k : Fin 16, s.sp.val = k.val := ⟨⟨_, hsp⟩, rfl⟩
    have hcall := step_call_of_lt hr hb hw hk
    refine ⟨_, _, hcall, step_ret_of_pos (k := k) ?_ ?_ ?_ ?_, stack_of_step_call hr hb hw hk hcall, Fin.ext hk.symm, hr, rfl⟩
    · exact hr
    · exact (callTarget_toNat n).trans_le hn
    · rw [← callTarget_toNat n] at hhi hlo
      exact congrArg₂ wordOfBytes hhi hlo
    · exact Fin.val_succ k
  · intro s t u n m hr hb hw hsp hdeeper hm hrun htsp htr htb htw hu
    obtain ⟨k, hk⟩ : ∃ k : Fin 16, s.sp.val = k.val := ⟨⟨_, hsp⟩, rfl⟩
    obtain ⟨m, rfl⟩ := Nat.exists_eq_add_of_le' hm
    obtain ⟨v, hv, -⟩ := step_effect s
    rw [runSteps_succ m hv] at hrun
    have hkept : t.stack[k] = v.stack[k] := stack_of_runSteps hrun fun j w hj hw =>
      hk ▸ hdeeper (j + 1) w (by omega) (by omega) ((runSteps_succ j hv).trans hw)
    have hpushed : v.stack[k] = s.pc + 2 := stack_of_step_call hr hb hw hk hv
    rw [step_ret_of_pos htr htb htw (htsp.trans (by rw [hk]))] at hu
    cases hu
    exact ⟨hkept.trans hpushed, Fin.ext hk.symm⟩

/-! ### The nesting depth -/

/-- An ALU instruction is no CALL. -/
theorem isCall_of_aluDest {i : Instr} {d : Reg × Bool} (h : aluDest i = some d) : isCall i = false := by
  cases i with
  | halt | ret | call => cases h
  | move | or | and | xor | add | sub => rfl

/-- A CALL with room for its entry and an ALU instruction keep the run state; the CALL raises `sp` by one. -/
theorem exec_call_or_alu {i : Instr} {s : State} (hi : isCall i = true ∨ aluDest i ≠ none)
    (hroom : s.sp.val + (if isCall i then 1 else 0) ≤ 16) :
    ∃ t, exec i s = .next t ∧ t.runState = s.runState ∧ t.sp.val = s.sp.val + if isCall i then 1 else 0 := by
  obtain ⟨t, ht, he⟩ := exec_effect i s
  refine ⟨t, ht, ?_⟩
  cases he with
  | halts | returns | underflows => simp [isCall, aluDest] at hi
  | calls n k hk => exact ⟨rfl, by simp [isCall, hk]⟩
  | overflows n hsp => simp [isCall, hsp] at hroom
  | writes i x v hd | writesFlagged i x v b hd => exact ⟨rfl, by simp [isCall_of_aluDest hd]⟩

/-- CALLs for which the stack has room, with ALU instructions between them, all succeed and raise `sp` by one each: induction on
the list. -/
theorem execAll_calls {is : List Instr} {s : State} (his : ∀ i ∈ is, isCall i = true ∨ aluDest i ≠ none)
    (hroom : s.sp.val + is.countP isCall ≤ 16) :
    ∃ t, execAll is s = .next t ∧ t.runState = s.runState ∧ t.sp.val = s.sp.val + is.countP isCall := by
  induction is generalizing s with
  | nil => exact ⟨s, rfl, rfl, rfl⟩
  | cons i is ih =>
    rw [List.countP_cons] at hroom ⊢
    obtain ⟨u, hu, hur, husp⟩ := exec_call_or_alu (his i List.mem_cons_self) (s := s) (by omega)
    obtain ⟨t, ht, htr, htsp⟩ := ih (s := u) (fun j hj => his j (List.mem_cons_of_mem i hj)) (by omega)
    exact ⟨t, by rw [execAll, hu]; exact ht, htr.trans hur, by omega⟩

/-- Settles O5: the count of the CALLs is `sp`, and a full stack fails the next; an empty one fails a RETURN. -/
theorem nestingDepthIsSixteen : Obligations.NestingDepthIsSixteen := by
  refine ⟨fun s is hr h0 his hcount => ?_, fun s h0 => ⟨_, exec_ret_of_zero h0, rfl, rfl, h0⟩⟩
  obtain ⟨t, ht, htr, htsp⟩ := execAll_calls (s := s) his (by omega)
  have hsp : t.sp.val = is.countP isCall := by omega
  refine ⟨t, ht, htr.trans hr, hsp, fun hfull n => ?_⟩
  have hsp16 := hsp.trans hfull
  exact ⟨_, exec_call_of_full n hsp16, rfl, rfl, hsp16⟩

end Sys2Proof.Machine

/-! PROOFS. The statements about the ALU: the words and results of MOVE, OR, AND, XOR, ADD and SUB, their flags, and their frame
(spec/42_alu.md). -/

namespace Sys2Proof

/-! ### The words of the ALU group -/

/-- An ALU word as R100 to R105 write it is the encoder's (R64): its fields lie in nibbles of their own. -/
theorem pairWord_eq_encodeAlu {k : Nat} (hk : k < 16) (x y : Reg) :
    Machine.pairWord (BitVec.ofNat 16 (0x8000 + k)) x y = encodeAlu k x y := by
  have hlow : 2 ^ 4 * y.val + k = 2 ^ 4 * y.val ||| k := Nat.two_pow_add_eq_or_of_lt hk _
  have hmid : 2 ^ 8 * x.val + (2 ^ 4 * y.val + k) = 2 ^ 8 * x.val ||| (2 ^ 4 * y.val + k) :=
    Nat.two_pow_add_eq_or_of_lt (by omega) _
  have hhigh : 2 ^ 12 * 8 + (2 ^ 8 * x.val + (2 ^ 4 * y.val + k)) = 2 ^ 12 * 8 ||| (2 ^ 8 * x.val + (2 ^ 4 * y.val + k)) :=
    Nat.two_pow_add_eq_or_of_lt (by omega) _
  have hbase : 2 ^ 12 * 8 + k = 2 ^ 12 * 8 ||| k := Nat.two_pow_add_eq_or_of_lt (by omega) _
  have hword : (Machine.pairWord (BitVec.ofNat 16 (0x8000 + k)) x y).toNat =
      2 ^ 12 * 8 + k ||| 2 ^ 8 * x.val ||| 2 ^ 4 * y.val := by
    simp only [Machine.pairWord, BitVec.toNat_or, BitVec.toNat_shiftLeft, BitVec.toNat_ofNat, Nat.shiftLeft_eq]
    congr 1
    · congr 1 <;> omega
    · omega
  apply BitVec.eq_of_toNat_eq
  calc (Machine.pairWord (BitVec.ofNat 16 (0x8000 + k)) x y).toNat
      = 2 ^ 12 * 8 ||| (2 ^ 8 * x.val ||| (2 ^ 4 * y.val ||| k)) := by rw [hword, hbase]; ac_rfl
    _ = 2 ^ 12 * 8 + (2 ^ 8 * x.val + (2 ^ 4 * y.val + k)) := by rw [hhigh, hmid, hlow]
    _ = (encodeAlu k x y).toNat := by rw [encodeAlu_toNat hk]; omega

/-- An ALU word as R100 to R105 write it decodes by its `op` (it does not read `addr12`). -/
theorem decodeWord_pairWord {k : Nat} (hk : k < 16) (x y : Reg) :
    decodeWord (Machine.pairWord (BitVec.ofNat 16 (0x8000 + k)) x y) =
      decodeAlu ⟨0x8, .ofFin x, .ofFin y, .ofNat 4 k, 0⟩ := by
  rw [pairWord_eq_encodeAlu hk, decodeWord_encodeAlu hk]

/-- The ALU group decodes ALU instructions only (R58). -/
theorem aluDest_of_decodeAlu {f : Fields} {i : Instr} (h : decodeAlu f = .ok i) : Machine.aluDest i ≠ none := by
  unfold decodeAlu at h
  dsimp only at h
  split_ifs at h <;> cases h <;> nofun

end Sys2Proof

namespace Sys2Proof.Machine

/-! ### Results and flags as numbers -/

/-- A flag byte by its condition (R12). -/
theorem flagByte_decide (c : Prop) [Decidable c] : flagByte (decide c) = if c then 0x01 else 0x00 := by
  simp only [flagByte, decide_eq_true_eq]

/-- The carry by its condition (R104). -/
theorem addFlag_eq (p q : Byte) : addFlag p q = if p.toNat + q.toNat > 255 then 0x01 else 0x00 := flagByte_decide _

/-- The inverted borrow by its condition (R105). -/
theorem subFlag_eq (p q : Byte) : subFlag p q = if p.toNat ≥ q.toNat then 0x01 else 0x00 := flagByte_decide _

/-- The carry as a number. -/
theorem addFlag_toNat (p q : Byte) : (addFlag p q).toNat = if p.toNat + q.toNat > 255 then 1 else 0 := by
  simp only [addFlag, flagByte_toNat, decide_eq_true_eq]

/-- The inverted borrow as a number. -/
theorem subFlag_toNat (p q : Byte) : (subFlag p q).toNat = if p.toNat ≥ q.toNat then 1 else 0 := by
  simp only [subFlag, flagByte_toNat, decide_eq_true_eq]

/-- SUB's result with and without a borrow (R105). -/
theorem subResult_toNat_ite (p q : Byte) :
    (subResult p q).toNat = if p.toNat ≥ q.toNat then p.toNat - q.toNat else p.toNat + 256 - q.toNat := by
  rw [subResult_toNat]
  split <;> omega

/-- The exact sum is the carry before the result (R107). -/
theorem addFlag_addResult_exact (p q : Byte) : p.toNat + q.toNat = 256 * (addFlag p q).toNat + (addResult p q).toNat := by
  rw [addFlag_toNat, addResult_toNat]
  split <;> omega

/-- The exact difference is the result less the borrow (R107). -/
theorem subFlag_subResult_exact (p q : Byte) :
    (p.toNat : Int) - q.toNat = (subResult p q).toNat - 256 * (1 - (subFlag p q).toNat) := by
  rw [subFlag_toNat, subResult_toNat_ite]
  split <;> omega

/-- The sum of R111's adder: `p + ~q + 1` is `p - q` above 256, so its carry is the inverted borrow. -/
theorem add_not_add_one (p q : Byte) : p.toNat + (~~~q).toNat + 1 = p.toNat + 256 - q.toNat := by
  rw [BitVec.toNat_not]
  omega

/-! ### What ADD and SUB write -/

/-- ADD's next state (R104). -/
theorem exec_add (x y : Reg) (s : State) : exec (.add x y) s =
    .next (s.setRegThenFlag x (addResult (s.reg x) (s.reg y)) (addFlag (s.reg x) (s.reg y))) := rfl

/-- SUB's next state (R105). -/
theorem exec_sub (x y : Reg) (s : State) : exec (.sub x y) s =
    .next (s.setRegThenFlag x (subResult (s.reg x) (s.reg y)) (subFlag (s.reg x) (s.reg y))) := rfl

/-- The flag register holds the flag, whatever the destination (R108). -/
theorem reg_setRegThenFlag_flag (s : State) (x : Reg) (v f : Byte) : (s.setRegThenFlag x v f).reg 15 = f := by
  rw [reg_setRegThenFlag, Config.flagReg, if_pos rfl]

/-- A destination that is not the flag register holds the result. -/
theorem reg_setRegThenFlag_dest (s : State) {x : Reg} (v f : Byte) (hx : x ≠ 15) : (s.setRegThenFlag x v f).reg x = v := by
  rw [reg_setRegThenFlag, Config.flagReg, if_neg hx, if_pos rfl]

/-- Every register but the destination and the flag register is as before. -/
theorem reg_setRegThenFlag_other (s : State) {x z : Reg} (v f : Byte) (hx : z ≠ x) (hf : z ≠ 15) :
    (s.setRegThenFlag x v f).reg z = s.reg z := by
  rw [reg_setRegThenFlag, Config.flagReg, if_neg hf, if_neg hx]

/-! ### The frame -/

/-- A register write changes nothing but registers. -/
theorem onlyRegistersDiffer_setReg (s : State) (x : Reg) (v : Byte) : OnlyRegistersDiffer s (s.setReg x v) :=
  ⟨rfl, rfl, rfl, rfl, rfl, rfl, fun _ => rfl⟩

/-- Neither does a register write with the flag after it. -/
theorem onlyRegistersDiffer_setRegThenFlag (s : State) (x : Reg) (v f : Byte) :
    OnlyRegistersDiffer s (s.setRegThenFlag x v f) :=
  ⟨rfl, rfl, rfl, rfl, rfl, rfl, fun _ => rfl⟩

/-- Settles O14, by the two effects of an ALU instruction. -/
theorem aluFrame : Obligations.AluFrame := by
  intro i x flagged s t hi h
  obtain ⟨rfl, v, rfl⟩ | ⟨rfl, v, b, rfl⟩ := execEffect_alu hi (execEffect_of_next h)
  · exact ⟨fun z hz _ => by rw [reg_setReg, if_neg hz], onlyRegistersDiffer_setReg s x v⟩
  · exact ⟨fun z hz hf => reg_setRegThenFlag_other s v _ hz (hf rfl), onlyRegistersDiffer_setRegThenFlag s x v _⟩

/-! ### MOVE, OR, AND, XOR -/

/-- An instruction whose next state is a register write writes that register only. -/
theorem writesOnly_of_exec {i : Instr} {x : Reg} {v : Byte} {s : State} (h : exec i s = .next (s.setReg x v)) :
    WritesOnly i x v s :=
  ⟨_, h, fun z => reg_setReg s x z v, onlyRegistersDiffer_setReg s x v⟩

/-- Settles O7: each word by its `op`, each behaviour by the shared form of the four. -/
theorem plainAluResults : Obligations.PlainAluResults := by
  intro x y s
  refine ⟨⟨decodeWord_pairWord (k := 0) (by decide) x y, ?_⟩, ⟨decodeWord_pairWord (k := 1) (by decide) x y, ?_⟩,
    ⟨decodeWord_pairWord (k := 2) (by decide) x y, ?_⟩, ⟨decodeWord_pairWord (k := 3) (by decide) x y, ?_⟩⟩
  · exact writesOnly_of_exec (execPlain_eq (fun _ q => q) x y s)
  · exact writesOnly_of_exec (execPlain_eq (fun p q => p ||| q) x y s)
  · exact writesOnly_of_exec (execPlain_eq (fun p q => p &&& q) x y s)
  · exact writesOnly_of_exec (execPlain_eq (fun p q => p ^^^ q) x y s)

/-! ### ADD and SUB -/

/-- Settles O8: the word by its `op`, the sum and the carry in ADD's next state. -/
theorem addWritesSumThenCarry : Obligations.AddWritesSumThenCarry := by
  intro x y s
  refine ⟨decodeWord_pairWord (k := 4) (by decide) x y, _, exec_add x y s, fun hx => ?_, ?_,
    fun z => reg_setRegThenFlag_other s _ _, onlyRegistersDiffer_setRegThenFlag ..⟩
  · rw [reg_setRegThenFlag_dest s _ _ hx, addResult_toNat]
  · rw [reg_setRegThenFlag_flag, addFlag_eq]

/-- Settles O9: the words by their `op`, the difference and the inverted borrow in SUB's next state. -/
theorem subWritesDifferenceThenNotBorrow : Obligations.SubWritesDifferenceThenNotBorrow := by
  intro x y s
  refine ⟨decodeWord_pairWord (k := 5) (by decide) x y,
    decodes_eq_false_iff.mpr ⟨_, decodeWord_pairWord (k := 7) (by decide) x y⟩, _, exec_sub x y s, fun hx => ?_, ?_,
    fun z => reg_setRegThenFlag_other s _ _, onlyRegistersDiffer_setRegThenFlag ..⟩
  · rw [reg_setRegThenFlag_dest s _ _ hx, subResult_toNat_ite]
  · rw [reg_setRegThenFlag_flag, subFlag_eq]

/-- Settles O10: the flag is what the flag register reads, and for `y = 0xF` both operands are its old value. -/
theorem flagWrittenLastWhenDestination : Obligations.FlagWrittenLastWhenDestination := by
  intro y s
  refine ⟨⟨_, exec_add 15 y s, ?_, ?_, fun z hz => reg_setRegThenFlag_other s _ _ hz hz⟩,
    ⟨_, exec_sub 15 y s, ?_, ?_, fun z hz => reg_setRegThenFlag_other s _ _ hz hz⟩⟩
  · rw [reg_setRegThenFlag_flag, addFlag_eq]
  · rintro rfl
    rw [reg_setRegThenFlag_flag, addFlag_eq]
    exact if_congr (by omega) rfl rfl
  · rw [reg_setRegThenFlag_flag, subFlag_eq]
  · rintro rfl
    rw [reg_setRegThenFlag_flag, subFlag_eq, if_pos le_rfl]

/-- Settles O11: result and flag stand in registers of their own, and are exact together. -/
theorem arithmeticIsExactWithFlag : Obligations.ArithmeticIsExactWithFlag := by
  intro x y s hx
  refine ⟨⟨_, exec_add x y s, ?_⟩, ⟨_, exec_sub x y s, ?_⟩⟩
  · rw [reg_setRegThenFlag_flag, reg_setRegThenFlag_dest s _ _ hx, ← addFlag_addResult_exact]
  · rw [reg_setRegThenFlag_flag, reg_setRegThenFlag_dest s _ _ hx, ← subFlag_subResult_exact]

/-- Settles O12: the adder's sum is the difference above 256, its low eight bits SUB's result and its carry SUB's flag. -/
theorem subtractIsAdderWithComplement : Obligations.SubtractIsAdderWithComplement := by
  intro x y s hx
  refine ⟨_, exec_sub x y s, ?_, ?_⟩
  · rw [reg_setRegThenFlag_dest s _ _ hx, add_not_add_one]
    apply BitVec.eq_of_toNat_eq
    rw [subResult_toNat, BitVec.toNat_ofNat]
  · rw [reg_setRegThenFlag_flag, add_not_add_one, subFlag_toNat]
    split <;> omega

/-! ### No ALU instruction fails -/

/-- An ALU instruction answers a next state in which only registers differ (R106, R110). -/
theorem exec_alu {i : Instr} (hi : aluDest i ≠ none) (s : State) : ∃ t, exec i s = .next t ∧ OnlyRegistersDiffer s t := by
  obtain ⟨⟨x, flagged⟩, hd⟩ := Option.ne_none_iff_exists'.mp hi
  obtain ⟨t, ht, -⟩ := exec_effect i s
  exact ⟨t, ht, (aluFrame i x flagged s t hd ht).2⟩

/-- Settles O13: the frame of an ALU instruction, and for a word of family 0x8 whether its `op` decodes. -/
theorem aluInstructionsNeverFail : Obligations.AluInstructionsNeverFail := by
  refine ⟨fun i s hi => ?_, fun s hr hb hf => ?_⟩
  · obtain ⟨t, ht, hframe⟩ := exec_alu hi s
    exact ⟨t, ht, hframe.runState, hframe.fault⟩
  · have hdecode := decodeWord_of_family_8 hf
    cases hd : decodeAlu (splitWord s.fetchWord) with
    | ok i =>
      have hop := (decodeAlu_isOk_iff _).mp ⟨i, hd⟩
      obtain ⟨t, ht, hframe⟩ := exec_alu (aluDest_of_decodeAlu hd) s.advance
      refine ⟨fun _ => ⟨i, t, hdecode.trans hd, aluDest_of_decodeAlu hd, ?_, hframe.runState.trans hr⟩, fun _ => by omega⟩
      exact (step_of_decode hr hb (hdecode.trans hd)).trans ht
    | error e =>
      have hop : ¬ (splitWord s.fetchWord).op.toNat < 6 := by
        rw [← decodeAlu_isOk_iff, hd]
        exact nofun
      refine ⟨fun _ => by omega, fun _ => ?_⟩
      rw [step_of_reject hr hb (hdecode.trans hd), State.raiseUnsupported, fetchAddr_advance]
      rfl

end Sys2Proof.Machine

/-! PROOFS. The statements about the host (spec/50_interfaces.md): what an answered move does, which of them a running core answers,
that each keeps the invariant, and what the host reads. -/

namespace Sys2Proof.Machine

/-! ### What an answered move does -/

/-- Start while IDLE (R125). -/
theorem hostStart_of_idle {s : State} (hr : s.runState = .idle) : hostStart s = s.setRunState .running := if_pos hr

/-- Start in any other state is ignored (R125). -/
theorem hostStart_of_not_idle {s : State} (hr : s.runState ≠ .idle) : hostStart s = s := if_neg hr

/-- A register preset while IDLE (R126). -/
theorem hostPreset_of_idle {s : State} (x : Reg) (v : Byte) (hr : s.runState = .idle) :
    hostPreset x v s = .next (s.setReg x v) := if_pos hr

/-- The next state of each host move that the model answers, and the condition under which it answers it so (R124, R125, R126, R131). -/
inductive HostEffect (s : State) : HostMove → State → Prop
  | resets : HostEffect s .reset (hostReset s)
  | starts (hr : s.runState = .idle) : HostEffect s .start (s.setRunState .running)
  | ignoresStart (hr : s.runState ≠ .idle) : HostEffect s .start s
  | presets (x : Reg) (v : Byte) (hr : s.runState = .idle) : HostEffect s (.presetReg x v) (s.setReg x v)
  | loadsByte (a : Nat) (v : Byte) (hr : s.runState = .idle) (ha : a < 0x1000) :
    HostEffect s (.loadByte a v) { s with mem := s.mem.write a v }
  | loadsProgram (base : Nat) (ws : List Word) (hr : s.runState = .idle) (hb : base + 2 * ws.length ≤ 0x1000) :
    HostEffect s (.loadProgram base ws) { s with mem := s.mem.writeWords base ws }

/-- A move answered with a next state has one of these effects: the branches of each move. -/
theorem hostEffect_of_next {s t : State} {m : HostMove} (h : hostAct m s = .next t) : HostEffect s m t := by
  cases m with
  | reset =>
    cases h
    exact .resets
  | start =>
    cases h
    by_cases hr : s.runState = .idle
    · rw [hostStart_of_idle hr]
      exact .starts hr
    · rw [hostStart_of_not_idle hr]
      exact .ignoresStart hr
  | presetReg x v =>
    simp only [hostAct, hostPreset] at h
    split_ifs at h with hr
    cases h
    exact .presets x v hr
  | loadByte a v =>
    simp only [hostAct, hostLoadByte] at h
    split_ifs at h with hr ha
    cases h
    exact .loadsByte a v (not_not.mp hr) (not_le.mp ha)
  | loadProgram base ws =>
    simp only [hostAct, hostLoadProgram] at h
    split_ifs at h with hr hb
    cases h
    exact .loadsProgram base ws (not_not.mp hr) (not_lt.mp hb)

/-- No answered move but reset writes `pc` or the call stack (R126). -/
theorem HostEffect.pc_sp_stack {s t : State} {m : HostMove} (h : HostEffect s m t) (hm : m ≠ .reset) :
    t.pc = s.pc ∧ t.sp = s.sp ∧ t.stack = s.stack := by
  cases h with
  | resets => exact absurd rfl hm
  | starts | ignoresStart | presets | loadsByte | loadsProgram => exact ⟨rfl, rfl, rfl⟩

/-- Outside IDLE only reset and an ignored start are answered (R125, R129). -/
theorem HostEffect.reset_or_ignored {s t : State} {m : HostMove} (h : HostEffect s m t) (hidle : s.runState ≠ .idle) :
    m = .reset ∨ (m = .start ∧ t = s) := by
  cases h with
  | resets => exact .inl rfl
  | ignoresStart => exact .inr ⟨rfl, rfl⟩
  | starts hr | presets _ _ hr | loadsByte _ _ hr | loadsProgram _ _ hr => exact absurd hr hidle

/-! ### The invariant -/

/-- Reset gives a state that meets the invariant if memory has its canonical form, which reset leaves alone. -/
theorem hostReset_inv {s : State} (hmem : s.mem.wf = true) : (hostReset s).Inv where
  mem := hmem
  pc := resetMeetsInvariant.pc
  stack := resetMeetsInvariant.stack
  clear := resetMeetsInvariant.clear
  told := fun hf => by cases hf

/-- Settles O40, by the effects of an answered move: while IDLE the record is clear, and a load keeps memory canonical. -/
theorem hostMovesKeepInvariant : Obligations.HostMovesKeepInvariant := by
  intro s t m hinv h
  have hclear (hr : s.runState = .idle) : s.fault = FaultRecord.cleared := hinv.clear (by rw [hr]; decide)
  have htold {P : Prop} (hr : s.runState = .idle) (hf : s.runState = .faulted) : P := by rw [hr] at hf; cases hf
  cases hostEffect_of_next h with
  | resets => exact hostReset_inv hinv.mem
  | starts hr => exact ⟨hinv.mem, hinv.pc, hinv.stack, fun _ => hclear hr, fun hf => by cases hf⟩
  | ignoresStart => exact hinv
  | presets x v hr => exact ⟨hinv.mem, hinv.pc, hinv.stack, fun _ => hclear hr, htold hr⟩
  | loadsByte a v hr ha => exact ⟨wf_write v ha hinv.mem, hinv.pc, hinv.stack, fun _ => hclear hr, htold hr⟩
  | loadsProgram base ws hr hb =>
    exact ⟨wf_writeWords ws hb hinv.mem, hinv.pc, hinv.stack, fun _ => hclear hr, htold hr⟩

/-! ### The moves -/

/-- Settles O42, by start's two cases. -/
theorem startOnlyLeavesIdle : Obligations.StartOnlyLeavesIdle :=
  fun _ => ⟨fun hr => congrArg _ (hostStart_of_idle hr), fun hr => congrArg _ (hostStart_of_not_idle hr)⟩

/-- Settles O43: a preset is a register write, and the frame of an answered move. -/
theorem presetWritesOneRegisterWhileIdle : Obligations.PresetWritesOneRegisterWhileIdle := by
  refine ⟨fun s x v hr => ?_, fun s t m hm h => ?_⟩
  · exact ⟨_, hostPreset_of_idle x v hr, fun z => reg_setReg s x z v, onlyRegistersDiffer_setReg s x v⟩
  · obtain ⟨hpc, hsp, hstack⟩ := (hostEffect_of_next h).pc_sp_stack hm
    obtain ⟨hfault, hrunState⟩ := hostAct_fault_runState h hm
    exact ⟨hpc, hsp, hstack, hfault, hrunState⟩

/-! ### What the host reads -/

/-- A register read while not RUNNING (R128). -/
theorem hostReadReg_of_not_running {s : State} (x : Reg) (hr : s.runState ≠ .running) : hostReadReg x s = some (s.reg x) :=
  if_neg hr

/-- Inspection while not RUNNING (R127). -/
theorem hostInspect_of_not_running {s : State} (hr : s.runState ≠ .running) :
    hostInspect s = some ⟨s.pc, BitVec.ofNat 5 s.sp.val, Vector.ofFn (inspectedEntry s)⟩ := if_neg hr

/-- The 5 bits in which the host sees `sp` hold each of its values (R17, R127). -/
theorem inspectedSp_toNat (s : State) : (BitVec.ofNat 5 s.sp.val).toNat = s.sp.val := by
  rw [BitVec.toNat_ofNat, Nat.mod_eq_of_lt (by omega)]

/-- Inspection shows an entry in use as it is (R127). -/
theorem inspectedEntry_of_lt {s : State} {i : Fin 16} (hi : i.val < s.sp.val) : inspectedEntry s i = s.stack[i] := if_pos hi

/-- Settles O45: a running core is not IDLE, and its registers and inspection are closed to the host. -/
theorem hostOnlyResetsWhileRunning : Obligations.HostOnlyResetsWhileRunning := by
  intro s hr
  have hidle : s.runState ≠ .idle := by rw [hr]; decide
  refine ⟨fun m t h => (hostEffect_of_next h).reset_or_ignored hidle, fun x => if_pos hr, if_pos hr, ?_⟩
  exact congrArg runStateCode hr

/-- Settles O46: the status field by field, and the reads of a core that is not RUNNING. -/
theorem hostSeesTheState : Obligations.HostSeesTheState := by
  refine ⟨fun s => ⟨rfl, rfl, rfl, rfl, beq_iff_eq, beq_iff_eq⟩, fun s hr => ?_⟩
  refine ⟨fun x => hostReadReg_of_not_running x hr, _, hostInspect_of_not_running hr, rfl, inspectedSp_toNat s, fun i hi => ?_⟩
  exact (Vector.getElem_ofFn i.isLt).trans (inspectedEntry_of_lt hi)

end Sys2Proof.Machine

/-! PROOFS. The statements about the failures: which words have no handler, the one failure a step raises, and its whole effect
(spec/60_exceptions.md). -/

namespace Sys2Proof.Machine

/-! ### Words without a handler -/

/-- The decoder answers an instruction for exactly the words that R141 does not name: family by family (R56, R57, R58). -/
theorem decodeWord_isOk_iff (w : Word) : (∃ i, decodeWord w = .ok i) ↔ ¬ HasNoHandler w := by
  by_cases h0 : (splitWord w).family = 0x0
  · rw [decodeWord_of_family_0 h0, decodeControl_isOk_iff]
    simp [HasNoHandler, h0, or_iff_not_imp_left]
  by_cases h2 : (splitWord w).family = 0x2
  · rw [decodeWord_of_family_2 h2]
    simp [HasNoHandler, h2]
  by_cases h8 : (splitWord w).family = 0x8
  · rw [decodeWord_of_family_8 h8, decodeAlu_isOk_iff]
    simp [HasNoHandler, h8]
  · rw [decodeWord_of_other_family h0 h2 h8]
    exact iff_of_false nofun (not_not.mpr (.inl ⟨h0, h2, h8⟩))

/-- The decoder rejects a word without a handler (R141). -/
theorem exists_error_of_hasNoHandler {w : Word} (h : HasNoHandler w) : ∃ e, decodeWord w = .error e := by
  cases hd : decodeWord w with
  | ok i => exact absurd h ((decodeWord_isOk_iff w).mp ⟨i, hd⟩)
  | error e => exact ⟨e, rfl⟩

/-! ### The effect of a failure -/

/-- An instruction raises a failure only as a CALL on a full stack or as a RETURN on an empty one (R142, R143). -/
theorem stack_of_execFailure {k : Nat} {i : Instr} {c : Cause} (h : execFailure k i = some c) :
    (c = .stackOverflow ∧ k = 16 ∧ ∃ n, i = .call n) ∨ (c = .stackUnderflow ∧ k = 0 ∧ i = .ret) := by
  cases i with
  | halt | move | or | and | xor | add | sub => cases h
  | ret =>
    simp only [execFailure, Option.ite_none_right_eq_some, Option.some.injEq] at h
    obtain ⟨hk, rfl⟩ := h
    exact .inr ⟨rfl, hk, rfl⟩
  | call n =>
    simp only [execFailure, Option.ite_none_right_eq_some, Option.some.injEq] at h
    obtain ⟨hk, rfl⟩ := h
    exact .inl ⟨rfl, hk, n, rfl⟩

/-- An instruction that raises a failure does nothing else, and records its word and its fetch address (R145, R147). -/
theorem exec_of_execFailure {s : State} {i : Instr} {c : Cause} (h : execFailure s.sp.val i = some c) :
    exec i s = .next (s.raise c (encode i) s.fetchAddr) := by
  obtain ⟨rfl, hfull, n, rfl⟩ | ⟨rfl, hempty, rfl⟩ := stack_of_execFailure h
  · exact exec_call_of_full n hfull
  · exact exec_ret_of_zero hempty

/-- The whole effect of a failure of a running core: the bounds check fails before the fetch, a rejected word and a failing
instruction after the advance (R145, R146). -/
theorem step_of_stepFailure {s : State} {c : Cause} (hr : s.runState = .running) (hf : stepFailure s = some c) :
    step s = .next { s with
      pc := if c = .outOfBounds then s.pc else s.pc + 2
      runState := .faulted
      fault := ⟨c, if c = .outOfBounds then 0x0000 else s.fetchWord, s.pc⟩ } := by
  rcases Nat.lt_or_ge 0x0FFE s.pc.toNat with hb | hb
  · rw [stepFailure_of_out_of_bounds hb] at hf
    cases hf
    exact step_of_out_of_bounds hr hb
  · cases hd : decodeWord s.fetchWord with
    | ok i =>
      rw [stepFailure_of_decode hb hd] at hf
      have hc : c ≠ .outOfBounds := by
        obtain ⟨rfl, -⟩ | ⟨rfl, -⟩ := stack_of_execFailure hf <;> nofun
      rw [step_of_decode hr hb hd, exec_of_execFailure (s := s.advance) hf, fetchAddr_advance, encode_decodeWord hd,
        if_neg hc, if_neg hc]
      rfl
    | error e =>
      rw [stepFailure_of_reject hb hd] at hf
      cases hf
      rw [step_of_reject hr hb hd, State.raiseUnsupported, fetchAddr_advance]
      rfl

/-! ### The failures of a step -/

/-- Settles O34: where a condition of R140 holds, by the whole effect of that failure; where none holds, by how `run_state` and
the record follow from a step. -/
theorem exactlyFourFailures : Obligations.ExactlyFourFailures := by
  refine ⟨fun s hr => ?_, fun c => by cases c <;> rfl⟩
  cases hf : stepFailure s with
  | some c =>
    refine ⟨_, step_of_stepFailure hr hf, fun d hd => ?_, nofun⟩
    cases hd
    exact ⟨rfl, rfl⟩
  | none =>
    obtain ⟨t, ht, he⟩ := step_effect s
    obtain ⟨hfault, hrunState⟩ := (he.runState_fault hr).2 hf
    refine ⟨t, ht, nofun, fun _ => ⟨?_, hfault⟩⟩
    rw [hrunState]
    split <;> nofun

/-- Settles O35: the whole effect of a failure, and a FAULTED core is neither RUNNING nor IDLE. -/
theorem failuresArePrecise : Obligations.FailuresArePrecise := by
  refine ⟨fun s c hr hf => step_of_stepFailure hr hf, fun s hs => ⟨?_, fun m t h hm => ⟨?_, ?_⟩⟩⟩
  · exact step_of_not_running (by rw [hs]; nofun)
  · rw [hostAct_runState_of_not_idle h hm (by rw [hs]; nofun), hs]
  · exact (hostAct_fault_runState h hm).1

/-- Settles O18: the decoder rejects the words without a handler, and an instruction raises only the failures of the stack. -/
theorem unsupportedInstructionIsRaised : Obligations.UnsupportedInstructionIsRaised := by
  intro s hr hb
  have hraised (h : HasNoHandler s.fetchWord) : step s = .next { s with
      pc := s.pc + 2, runState := .faulted, fault := ⟨.unsupportedInstruction, s.fetchWord, s.pc⟩ } := by
    obtain ⟨e, hd⟩ := exists_error_of_hasNoHandler h
    exact step_of_stepFailure hr (stepFailure_of_reject hb hd)
  refine ⟨hraised, fun h => ?_, fun hw => ?_⟩
  · obtain ⟨i, hd⟩ := (decodeWord_isOk_iff _).mpr h
    obtain ⟨t, ht, hsome, hnone⟩ := exactlyFourFailures.1 s hr
    refine ⟨t, ht, fun hs => ?_⟩
    rw [stepFailure_of_decode hb hd] at hsome hnone
    cases hf : execFailure s.sp.val i with
    | none => rwa [(hnone hf).2]
    | some c =>
      rw [(hsome c hf).2]
      obtain ⟨rfl, -⟩ | ⟨rfl, -⟩ := stack_of_execFailure hf <;> nofun
  · exact ⟨_, hraised (by rw [hw]; decide), by rw [hw]⟩

end Sys2Proof.Machine

/-! PROOFS. The statements about reset and hazards (spec/70_reset_and_hazards.md): every run ends, by the bound on an activation,
and the launch state. -/

namespace Sys2Proof.Machine

/-! ### Activations -/

/-- The run is over (R79). -/
def State.Ended (s : State) : Prop := s.runState = .halted ∨ s.runState = .faulted

/-- The activation that a running `s` is in is over after at most `b` steps, as R184 counts them: it returns, with the entries in use
as they were, or the run ends, for which one step that fails may come on top. -/
inductive RunsOut (s : State) (b : Nat) : Prop
  /-- HALT or a failure ends the run, at this depth or deeper -/
  | ends {n : Nat} {t : State} (hn : n ≤ b + 1) (hrun : runSteps n s = .next t) (ht : t.Ended)
  /-- RETURN pops the entry that was on top in `s` -/
  | returns {n : Nat} {t : State} (k : Fin 16) (hn : n ≤ b) (hrun : runSteps n s = .next t) (hk : s.sp.val = k.val + 1)
    (hr : t.runState = .running) (hsp : t.sp.val = k.val) (hpc : t.pc = s.stack[k])
    (hkept : ∀ i : Fin 16, i.val < s.sp.val → t.stack[i] = s.stack[i])

/-- A larger bound is a bound. -/
theorem RunsOut.mono {s : State} {b c : Nat} (h : RunsOut s b) (hbc : b ≤ c) : RunsOut s c := by
  cases h with
  | ends hn hrun ht => exact .ends (by omega) hrun ht
  | returns k hn hrun hk hr hsp hpc hkept => exact .returns k (by omega) hrun hk hr hsp hpc hkept

/-- Steps that come back to the same depth, with the entries in use as they were, stay in one activation. -/
theorem RunsOut.of_runSteps {s t : State} {m b : Nat} (h : RunsOut t b) (hrun : runSteps m s = .next t) (hsp : t.sp = s.sp)
    (hkept : ∀ i : Fin 16, i.val < s.sp.val → t.stack[i] = s.stack[i]) : RunsOut s (m + b) := by
  cases h with
  | ends hn hend ht => exact .ends (by omega) ((runSteps_add _ hrun).trans hend) ht
  | returns k hn hret hk hr htsp hpc hbelow =>
    rw [hsp] at hk hbelow
    exact .returns k (by omega) ((runSteps_add _ hrun).trans hret) hk hr htsp (hpc.trans (hkept k (by omega)))
      fun i hi => (hbelow i hi).trans (hkept i hi)

/-- What a running core's step is to the activation it belongs to. -/
inductive ActivationStep (s : State) : State → Prop
  /-- HALT and the failures -/
  | ends {t : State} (ht : t.Ended) : ActivationStep s t
  /-- RETURN -/
  | returns {t : State} (k : Fin 16) (hk : s.sp.val = k.val + 1) (hr : t.runState = .running) (hsp : t.sp.val = k.val)
    (hpc : t.pc = s.stack[k]) : ActivationStep s t
  /-- CALL begins a deeper activation and pushes the address after it -/
  | enters {t : State} (k : Fin 16) (hb : s.pc.toNat ≤ 0x0FFE) (hk : s.sp.val = k.val) (hr : t.runState = .running)
    (hsp : t.sp.val = k.val + 1) (hpushed : t.stack[k] = s.pc + 2) : ActivationStep s t
  /-- an ALU instruction -/
  | advances {t : State} (hb : s.pc.toNat ≤ 0x0FFE) (hr : t.runState = .running) (hsp : t.sp = s.sp) (hpc : t.pc = s.pc + 2) :
    ActivationStep s t

/-- A running core's step is one of these: the effects of a step. -/
theorem StepEffect.activationStep {s t : State} (h : StepEffect s t) (hr : s.runState = .running) : ActivationStep s t := by
  cases h with
  | stays hn => exact absurd hr hn
  | outOfBounds | unsupported => exact .ends (.inr rfl)
  | executes i _ hb hd he =>
    cases he with
    | halts => exact .ends (.inl rfl)
    | underflows | overflows => exact .ends (.inr rfl)
    | returns k hk => exact .returns k hk hr rfl rfl
    | calls n k hk => exact .enters k hb hk hr (Fin.val_succ k) (Vector.getElem_set_self _)
    | writes | writesFlagged => exact .advances hb hr rfl rfl

/-- An activation whose next step is a CALL: where the one it enters is over after at most `d` steps, and the rest of its own, from the
address after the CALL, after at most `b`. -/
theorem runsOut_of_call {s t : State} {k : Fin 16} {b d : Nat} (hstep : step s = .next t) (hk : s.sp.val = k.val)
    (hsp : t.sp.val = k.val + 1) (hpushed : t.stack[k] = s.pc + 2) (hcalled : RunsOut t d)
    (hrest : ∀ u : State, u.runState = .running → u.sp = s.sp → u.pc = s.pc + 2 → RunsOut u b) : RunsOut s (d + 1 + b) := by
  cases hcalled with
  | ends hn hrun ht => exact .ends (by omega) ((runSteps_succ _ hstep).trans hrun) ht
  | @returns n u j hn hrun hj hr husp hpc hkept =>
    obtain rfl : j = k := Fin.ext (by omega)
    have hback := (runSteps_succ _ hstep).trans hrun
    have hsame : u.sp = s.sp := Fin.ext (husp.trans hk.symm)
    refine ((hrest u hr hsame (hpc.trans hpushed)).of_runSteps hback hsame fun i hi => ?_).mono (by omega)
    exact (hkept i (by omega)).trans (stack_of_step hstep hi)

/-- An activation at depth `k` is over after at most `m * (d + 1)` steps if those one deeper are after at most `d` and its addresses,
which rise by 2, leave memory after at most `m` instructions: induction on `m`. -/
theorem runsOut_of_deeper {k d m : Nat} (hdeeper : ∀ u : State, u.runState = .running → u.sp.val = k + 1 → RunsOut u d)
    {s : State} (hr : s.runState = .running) (hk : s.sp.val = k) (hm : 0x0FFE < s.pc.toNat + 2 * m) :
    RunsOut s (m * (d + 1)) := by
  induction m generalizing s with
  | zero => exact .ends (n := 1) (by omega) (runSteps_succ 0 (step_of_out_of_bounds hr hm)) (.inr rfl)
  | succ m ih =>
    obtain ⟨t, ht, he⟩ := step_effect s
    have hrun : runSteps 1 s = .next t := runSteps_succ 0 ht
    have hrest (hb : s.pc.toNat ≤ 0x0FFE) (u : State) (hu : u.runState = .running) (hsp : u.sp = s.sp)
        (hpc : u.pc = s.pc + 2) : RunsOut u (m * (d + 1)) :=
      ih hu (by rw [hsp, hk]) (by rw [hpc, add_two_toNat hb]; omega)
    rw [Nat.succ_mul]
    cases he.activationStep hr with
    | ends hend => exact .ends (by omega) hrun hend
    | returns j hj htr hsp hpc => exact .returns j (by omega) hrun hj htr hsp hpc fun i hi => stack_of_step ht hi
    | enters j hb hj htr hsp hpushed =>
      exact (runsOut_of_call ht hj hsp hpushed (hdeeper t htr (by omega)) (hrest hb)).mono (by omega)
    | advances hb htr hsp hpc =>
      exact ((hrest hb t htr hsp hpc).of_runSteps hrun hsp fun i hi => stack_of_step ht hi).mono (by omega)

/-- R184's bound on an activation, `B` of its depth: induction on how many CALLs the stack has room for. -/
theorem runsOut_activationBound {j : Nat} {s : State} (hr : s.runState = .running) (hj : s.sp.val + j = 16) :
    RunsOut s (activationBound j) := by
  have hm : 0x0FFE < s.pc.toNat + 2 * 2048 := by omega
  induction j generalizing s with
  | zero => exact runsOut_of_deeper (d := 0) (fun u _ hu => by omega) hr rfl hm
  | succ j ih =>
    have hdeeper (u : State) (hu : u.runState = .running) (hsp : u.sp.val = s.sp.val + 1) : RunsOut u (activationBound j) :=
      ih hu (by omega) (by omega)
    exact (runsOut_of_deeper hdeeper hr rfl hm).mono (Nat.mul_le_mul_left 2048 (by omega))

/-! ### Every run ends -/

/-- Every run ends: induction on `sp`, as the activation of `s` ends the run or returns to the one below. -/
theorem exists_ended {k : Nat} {s : State} (hr : s.runState = .running) (hk : s.sp.val = k) :
    ∃ n t, runSteps n s = .next t ∧ t.Ended := by
  induction k generalizing s with
  | zero =>
    cases runsOut_activationBound (j := 16) hr (by omega) with
    | ends _ hrun ht => exact ⟨_, _, hrun, ht⟩
    | returns j _ _ hj => omega
  | succ k ih =>
    cases runsOut_activationBound (j := 16 - (k + 1)) hr (by omega) with
    | ends _ hrun ht => exact ⟨_, _, hrun, ht⟩
    | returns j _ hrun hj htr hsp =>
      obtain ⟨n, u, hu, hend⟩ := ih htr (by omega)
      exact ⟨_, u, (runSteps_add n hrun).trans hu, hend⟩

/-- Settles O48: an activation at depth 0 cannot return, so its bound is the run's. -/
theorem everyRunEnds : Obligations.EveryRunEnds := by
  refine ⟨fun s hr => exists_ended hr rfl, fun s hr h0 => ?_⟩
  cases runsOut_activationBound (j := 16) hr (by omega) with
  | ends hn hrun ht => exact ⟨_, _, hn, hrun, ht⟩
  | returns k _ _ hk => omega

/-! ### The launch state -/

/-- What was last written to a register is what the later moves last wrote, else what the first did. -/
theorem lastPreset_cons (z : Reg) (m : HostMove) (ms : List HostMove) :
    lastPreset z (m :: ms) = (lastPreset z ms).or (lastPreset z [m]) := by
  cases m with
  | presetReg => exact Option.orElse_eq_or
  | reset | start | loadByte | loadProgram => exact Option.or_none.symm

/-- `u` is `s` but for memory and the registers, and each register holds what the moves last wrote to it, else what it held. -/
structure PreparedBy (ms : List HostMove) (s u : State) : Prop where
  rest : u = { s with r := u.r, mem := u.mem }
  reg : ∀ z, u.reg z = (lastPreset z ms).getD (s.reg z)

/-- An answered move that is neither reset nor start prepares. -/
theorem HostEffect.prepared {s t : State} {m : HostMove} (h : HostEffect s m t) (hm : m ≠ .reset ∧ m ≠ .start) :
    PreparedBy [m] s t := by
  cases h with
  | resets => exact absurd rfl hm.1
  | starts | ignoresStart => exact absurd rfl hm.2
  | loadsByte | loadsProgram => exact ⟨rfl, fun _ => rfl⟩
  | presets x v =>
    refine ⟨rfl, fun z => ?_⟩
    rw [reg_setReg]
    by_cases hz : x = z
    · simp [lastPreset, hz]
    · simp [lastPreset, hz, Ne.symm hz]

/-- Preparing by one move and then by others. -/
theorem PreparedBy.cons {s t u : State} {m : HostMove} {ms : List HostMove} (hm : PreparedBy [m] s t)
    (hms : PreparedBy ms t u) : PreparedBy (m :: ms) s u where
  rest := by rw [hms.rest, hm.rest]
  reg z := by rw [hms.reg, hm.reg, lastPreset_cons z m ms, Option.getD_or]

/-- Answered moves that are neither reset nor start prepare: induction on the moves. -/
theorem preparedBy_of_hostActs {ms : List HostMove} {s u : State} (hms : ∀ m ∈ ms, m ≠ .reset ∧ m ≠ .start)
    (h : hostActs ms s = .next u) : PreparedBy ms s u := by
  induction ms generalizing s with
  | nil => cases h; exact ⟨rfl, fun _ => rfl⟩
  | cons m ms ih =>
    obtain ⟨hm, hms⟩ := List.forall_mem_cons.mp hms
    rw [hostActs] at h
    cases ht : hostAct m s with
    | next t =>
      rw [ht] at h
      exact ((hostEffect_of_next ht).prepared hm).cons (ih hms h)
    | fault r | refused r => rw [ht] at h; cases h

/-- Settles O47: the moves leave all but registers and memory as reset left it, and start makes that RUNNING. -/
theorem launchStateIsFixed : Obligations.LaunchStateIsFixed := by
  intro s u ms hms h
  obtain ⟨hrest, hreg⟩ := preparedBy_of_hostActs hms h
  have hidle : u.runState = .idle := by rw [hrest]; rfl
  refine ⟨congrArg _ ((hostStart_of_idle hidle).trans ?_), fun z => (hreg z).trans ?_⟩
  · rw [hrest]
    rfl
  · exact congrArg _ (reset_reg z)

end Sys2Proof.Machine

/-! PROOFS. The host moves the spec does not give (notes/assumptions/4.md): which the model refuses, and which fault. -/

namespace Sys2Proof.Machine

/-- Outside IDLE every move but reset and start is refused: presets and loads are for an IDLE core only (R126, R129, R131). -/
theorem hostAct_of_not_idle {s : State} {m : HostMove} (hr : s.runState ≠ .idle) (hreset : m ≠ .reset) (hstart : m ≠ .start) :
    hostAct m s = .refused (.hostMoveNotAllowed s.runState) := by
  cases m with
  | reset => exact absurd rfl hreset
  | start => exact absurd rfl hstart
  | presetReg => exact if_neg hr
  | loadByte | loadProgram => exact if_pos hr

/-- A byte load while IDLE to an address outside memory (R30). -/
theorem hostLoadByte_of_outside {s : State} {a : Nat} (v : Byte) (hr : s.runState = .idle) (ha : 0x1000 ≤ a) :
    hostLoadByte a v s = .fault (.noSuchAddress a) :=
  (if_neg (not_not.mpr hr)).trans (if_pos ha)

/-- A program load while IDLE whose words do not all lie in memory (R30, R31). -/
theorem hostLoadProgram_of_outside {s : State} {base : Nat} {ws : List Word} (hr : s.runState = .idle)
    (hb : 0x1000 < base + 2 * ws.length) : hostLoadProgram base ws s = .fault (.noSuchAddress (max base 0x1000)) :=
  (if_neg (not_not.mpr hr)).trans (if_pos hb)

/-- Settles O49: the refusals outside IDLE are one law of the moves, the faults while IDLE one of each load. -/
theorem hostMovesNotGivenStopByName : Obligations.HostMovesNotGivenStopByName :=
  ⟨fun _ _ _ hr => hostAct_of_not_idle hr nofun nofun,
    fun _ _ _ hr => hostAct_of_not_idle hr nofun nofun,
    fun _ _ _ hr => hostAct_of_not_idle hr nofun nofun,
    fun _ _ v hr ha => hostLoadByte_of_outside v hr ha,
    fun _ _ _ hr hb => hostLoadProgram_of_outside hr hb⟩

end Sys2Proof.Machine
